-- ==== Sys2Proof/Word.lean ====
section
/-! DEFINITION. The widths the spec names: a RAM byte, a descriptor word (a halfword of the descriptor bus), a 32-bit
address or datum, and the id of a core. -/

namespace Sys2Proof

/-- One byte of RAM, an owner tag, or a process id (R12, R17, R19). -/
abbrev Byte := BitVec 8

/-- One 16-bit descriptor word (R11). -/
abbrev Half := BitVec 16

/-- A 32-bit address, datum, logical descriptor or fault code (R61, R52, R58). -/
abbrev Word := BitVec 32

/-- The id of a core. R61 leaves its width open ("as wide as the core-id type") and the block only compares ids, so it
is a natural number. DESIGN CHOICE, safe (log 10). -/
abbrev CoreId := Nat

end Sys2Proof
end

