-- ==== Sys2Proof/Machine/Layout.lean ====
section
/-! DEFINITION. The numbers of R5, and the one record that holds every decided bit position (R5: "A model should keep
every decided bit position in one configuration record"). The positions are the spec's decisions D1 to D4, which the
source does not state: UNVERIFIED, unsafe (log 11). -/

namespace Sys2Proof.Machine

/-- Where the fields stand: in the two descriptor words, in the access type as the evaluator sees it, in the fault
code. -/
structure Layout where
  readDisabledBit : Nat
  writeDisabledBit : Nat
  execDisabledBit : Nat
  physicalPageLsb : Nat
  ownerLsb : Nat
  spareLsb : Nat
  referencedBit : Nat
  alteredBit : Nat
  accessLsb : Nat
  faultOwnerLsb : Nat
  sentinelLsb : Nat
  deriving DecidableEq, Repr

/-- R50 (lower word), R51 (upper word), R56 (access type moved to bits 31:29), R58 (fault code). -/
def layout : Layout where
  readDisabledBit := 15
  writeDisabledBit := 14
  execDisabledBit := 13
  physicalPageLsb := 0
  ownerLsb := 8
  spareLsb := 2
  referencedBit := 1
  alteredBit := 0
  accessLsb := 29
  faultOwnerLsb := 8
  sentinelLsb := 0

/-- `N_DESC`: the store has exactly 4096 entries (R10). -/
def descCount : Nat := 4096

/-- `USER_PAGES`: page indices the RAM bus accepts are below it (R91). -/
def userPages : Nat := 2048

/-- `SYS_BASE`: index of the first system-space descriptor (R92). -/
def sysBase : Nat := 2048

/-- `PAGE_SIZE`, in bytes (R5). -/
def pageSize : Nat := 4096

/-- `PAGE_SHIFT` (R91). -/
def pageShift : Nat := 12

/-- `OFFSET_MASK` (R94). -/
def offsetMask : Word := 0xFFF#32

/-- `VA_CEILING`: the first address outside the paged window (R5, R142). -/
def vaCeiling : Nat := 0x800000

end Sys2Proof.Machine
end

