-- ==== Sys2Proof/Config.lean ====
section
/-! DEFINITION. What an implementation fixes (the open parameters of R5) and the one value the spec leaves free. -/

namespace Sys2Proof

/-- The parameters R5 leaves to the machine: fixed for its whole life (R17, R184). -/
structure Params where
  /-- RAM_SIZE is 4096 * 2 ^ ramFrameBits, so every value is a power of two and at least one frame (R5, D11; log 3). -/
  ramFrameBits : Nat
  /-- SECONDARY_CORE_ID: the initiator whose descriptor writes are discarded (R108); OPEN in R5 (D10; log 4). -/
  secondaryCoreId : CoreId
  deriving DecidableEq, Repr

/-- FREE VALUE. Which of the composite codes that R142 admits a user-mode pre-check above the ceiling returns. R142:
"unspecified nonzero, FC[7:0] = 0"; there are 2^24 - 1 such codes, and nothing says which. The arguments are the number
of writes so far, the address and the access type, since R144 makes two checks with no write between them return the
same result. DESIGN CHOICE, safe (log 9). -/
opaque Config.ceilingFaultDraw : Nat → Word → BitVec 3 → Fin (16777214 + 1)

end Sys2Proof
end

