-- ==== Sys2Proof/Syntax.lean ====
section
/-! DEFINITION. The fifteen operations of R8, one constructor per row of the opcode table, with the operands their rules
name. -/

namespace Sys2Proof

/-- One operation of the block (R8). An operand is kept as wide as the request carries it (R61); each rule says which
of its bits the operation uses. -/
inductive Instr where
  /-- `DRD8 BA` (R103). -/
  | drd8 (ba : Word)
  /-- `DRD16 BA` (R102). -/
  | drd16 (ba : Word)
  /-- `DRD32 BA` (R104). -/
  | drd32 (ba : Word)
  /-- `DWR8 BA, data, cpu` (R106). -/
  | dwr8 (ba data : Word) (cpu : CoreId)
  /-- `DWR16 BA, data, cpu` (R105). -/
  | dwr16 (ba data : Word) (cpu : CoreId)
  /-- `DWR32 BA, data, cpu` (R107). -/
  | dwr32 (ba data : Word) (cpu : CoreId)
  /-- `RRD8 VA` (R121). -/
  | rrd8 (va : Word)
  /-- `RRD16 VA` (R122). -/
  | rrd16 (va : Word)
  /-- `RRD32 VA` (R123). -/
  | rrd32 (va : Word)
  /-- `RWR8 VA, data` (R124). -/
  | rwr8 (va data : Word)
  /-- `RWR16 VA, data` (R125). -/
  | rwr16 (va data : Word)
  /-- `RWR32 VA, data` (R126). -/
  | rwr32 (va data : Word)
  /-- `CHK VA, acc` (R140); `acc` is {read, write, execute} from bit 2 down (R55). -/
  | chk (va : Word) (acc : BitVec 3)
  /-- `SETSYS data` (R151). -/
  | setsys (data : Word)
  /-- `SETPID data` (R152). -/
  | setpid (data : Word)
  deriving DecidableEq, Repr

end Sys2Proof
end

