-- ==== Sys2Proof/Decode.lean ====
section
/-! DEFINITION. The request record REQ of R61, its decoder (R62, R63), its encoder, and the packing of a request into one
number that the host's opcode words use (log 7). -/

namespace Sys2Proof

/-- The request record of R61: "Only `op` selects the operation, and an operation ignores the fields its rule does not
name." -/
structure Request where
  op : BitVec 5
  cpu : CoreId
  addr : Word
  data : Word
  acc : BitVec 3
  deriving DecidableEq, Repr

/-- Why a request has no operation. -/
inductive Reject where
  /-- `op` is one of the seventeen codes R63 reserves. -/
  | reservedOp (op : BitVec 5)
  deriving DecidableEq, Repr

/-- The operation a request selects: the full map of R62, where `op` is `{unit[1:0], dir, size[1:0]}`; the codes with no
mnemonic are rejected by name (R63, D21). -/
def decodeRequest (r : Request) : Except Reject Instr :=
  match r.op.toNat with
  | 0x00 => .ok (.drd8 r.addr)
  | 0x01 => .ok (.drd16 r.addr)
  | 0x02 => .ok (.drd32 r.addr)
  | 0x04 => .ok (.dwr8 r.addr r.data r.cpu)
  | 0x05 => .ok (.dwr16 r.addr r.data r.cpu)
  | 0x06 => .ok (.dwr32 r.addr r.data r.cpu)
  | 0x08 => .ok (.rrd8 r.addr)
  | 0x09 => .ok (.rrd16 r.addr)
  | 0x0A => .ok (.rrd32 r.addr)
  | 0x0C => .ok (.rwr8 r.addr r.data)
  | 0x0D => .ok (.rwr16 r.addr r.data)
  | 0x0E => .ok (.rwr32 r.addr r.data)
  | 0x10 => .ok (.chk r.addr r.acc)
  | 0x1C => .ok (.setsys r.data)
  | 0x1D => .ok (.setpid r.data)
  | _ => .error (.reservedOp r.op)

/-- The request a number stands for. Bits 4:0 are `op`, as the opcode table numbers them. The spec lists REQ's fields but
packs them nowhere; DESIGN CHOICE, safe (log 7): `acc` in bits 7:5, `addr` in 39:8, `data` in 71:40, `cpu` above. -/
def Request.ofNat (w : Nat) : Request where
  op := BitVec.ofNat 5 w
  acc := BitVec.ofNat 3 (w / 2 ^ 5)
  addr := BitVec.ofNat 32 (w / 2 ^ 8)
  data := BitVec.ofNat 32 (w / 2 ^ 40)
  cpu := w / 2 ^ 72

/-- The number that stands for a request: the inverse of `Request.ofNat`. -/
def Request.toNat (r : Request) : Nat :=
  r.op.toNat + r.acc.toNat * 2 ^ 5 + r.addr.toNat * 2 ^ 8 + r.data.toNat * 2 ^ 40 + r.cpu * 2 ^ 72

/-- The operation a packed request selects; every number is answered. -/
def decodeWord (w : Nat) : Except Reject Instr :=
  decodeRequest (Request.ofNat w)

/-- The operation in an opcode word of `nbits` bits, every later bit of the request being 0. -/
def decodeTableWord (nbits w : Nat) : Option Instr :=
  match decodeWord (w % 2 ^ nbits) with
  | .ok i => some i
  | .error _ => none

/-- The request that asks for an operation, the fields the operation ignores being 0 (R61, R62). -/
def encodeRequest : Instr → Request
  | .drd8 ba => { op := 0b00000#5, cpu := 0, addr := ba, data := 0#32, acc := 0#3 }
  | .drd16 ba => { op := 0b00001#5, cpu := 0, addr := ba, data := 0#32, acc := 0#3 }
  | .drd32 ba => { op := 0b00010#5, cpu := 0, addr := ba, data := 0#32, acc := 0#3 }
  | .dwr8 ba data cpu => { op := 0b00100#5, cpu := cpu, addr := ba, data := data, acc := 0#3 }
  | .dwr16 ba data cpu => { op := 0b00101#5, cpu := cpu, addr := ba, data := data, acc := 0#3 }
  | .dwr32 ba data cpu => { op := 0b00110#5, cpu := cpu, addr := ba, data := data, acc := 0#3 }
  | .rrd8 va => { op := 0b01000#5, cpu := 0, addr := va, data := 0#32, acc := 0#3 }
  | .rrd16 va => { op := 0b01001#5, cpu := 0, addr := va, data := 0#32, acc := 0#3 }
  | .rrd32 va => { op := 0b01010#5, cpu := 0, addr := va, data := 0#32, acc := 0#3 }
  | .rwr8 va data => { op := 0b01100#5, cpu := 0, addr := va, data := data, acc := 0#3 }
  | .rwr16 va data => { op := 0b01101#5, cpu := 0, addr := va, data := data, acc := 0#3 }
  | .rwr32 va data => { op := 0b01110#5, cpu := 0, addr := va, data := data, acc := 0#3 }
  | .chk va acc => { op := 0b10000#5, cpu := 0, addr := va, data := 0#32, acc := acc }
  | .setsys data => { op := 0b11100#5, cpu := 0, addr := 0#32, data := data, acc := 0#3 }
  | .setpid data => { op := 0b11101#5, cpu := 0, addr := 0#32, data := data, acc := 0#3 }

/-- The packed request that asks for an operation. -/
def encodeWord (i : Instr) : Nat :=
  (encodeRequest i).toNat

end Sys2Proof
end

