-- ==== Sys2Proof/Machine/Cells.lean ====
section
/-! DEFINITION. Storage as a list of (address, value) cells in one canonical form: addresses strictly rising, and no
cell that equals what an unlisted address reads as. RAM is such a list of bytes, each half of the descriptor store such
a list of 16-bit words. -/

namespace Sys2Proof.Machine

/-- What an address that the list does not name reads as. The spec gives no contents at the start (R25); DESIGN CHOICE,
unsafe (log 1 for the store, log 2 for RAM). -/
def unlistedCell (w : Nat) : BitVec w := 0#w

/-- The value at address `k`. -/
def cellRead {w : Nat} : List (Nat × BitVec w) → Nat → BitVec w
  | [], _ => unlistedCell w
  | (a, x) :: rest, k => if a = k then x else cellRead rest k

/-- The list with no cell at address `k`. -/
def cellErase {w : Nat} : List (Nat × BitVec w) → Nat → List (Nat × BitVec w)
  | [], _ => []
  | (a, x) :: rest, k => if a = k then cellErase rest k else (a, x) :: cellErase rest k

/-- The list with a cell added before the first cell of a higher address. -/
def cellInsert {w : Nat} : List (Nat × BitVec w) → Nat → BitVec w → List (Nat × BitVec w)
  | [], k, v => [(k, v)]
  | (a, x) :: rest, k, v => if k < a then (k, v) :: (a, x) :: rest else (a, x) :: cellInsert rest k v

/-- Address `k` made to hold `v`: writing what an unlisted address reads as removes the cell. -/
def cellWrite {w : Nat} (m : List (Nat × BitVec w)) (k : Nat) (v : BitVec w) : List (Nat × BitVec w) :=
  if v = unlistedCell w then cellErase m k else cellInsert (cellErase m k) k v

/-- Every address of the list is at least `b`. -/
def cellsFrom {w : Nat} (b : Nat) : List (Nat × BitVec w) → Bool
  | [] => true
  | (a, _) :: rest => decide (b ≤ a) && cellsFrom b rest

/-- Every address of the list is below `b`. -/
def cellsBelow {w : Nat} (b : Nat) : List (Nat × BitVec w) → Bool
  | [] => true
  | (a, _) :: rest => decide (a < b) && cellsBelow b rest

/-- The canonical form. -/
def cellsCanonical {w : Nat} : List (Nat × BitVec w) → Bool
  | [] => true
  | (a, x) :: rest => decide (x ≠ unlistedCell w) && (cellsFrom (a + 1) rest && cellsCanonical rest)

end Sys2Proof.Machine
end

