-- ==== Sys2Proof/Machine/State.lean ====
section
/-! DEFINITION. The state of the block as plain data (R7), what an operation hands back, why a step can stop, and the
state after reset. -/

namespace Sys2Proof.Machine

/-- The three outward categories of R60. -/
inductive Category where
  | ok
  | protectionFault
  | ownershipFault
  deriving DecidableEq, Repr

/-- What an operation hands back to the bus master that issued it. -/
inductive Response where
  /-- Nothing has been handed back yet. -/
  | nothing
  /-- A writing operation completed; it returns no value ("Result: none"). -/
  | done
  /-- A read's value, zero-extended to 32 bits (R65). -/
  | data (value : Word)
  /-- The result of `CHK`: the category and the composite fault code (R145). -/
  | check (category : Category) (code : Word)
  deriving DecidableEq, Repr

/-- Why the machine stops. -/
inductive Fault where
  /-- `Abort(AssertRange)` (R165): raised by DRD8, DRD16, DRD32, DWR8, DWR16, DWR32 that reach a descriptor index above
  4095, and by RRD8, RRD16, RRD32, RWR8, RWR16, RWR32 with VA >= 0x800000. "Fatal to the emulator process": the machine's
  life ends and no state survives to be observed (R166), as here. Safe (log 16). -/
  | assertRange
  deriving DecidableEq, Repr

/-- Why a request has no meaning. -/
inductive Refusal where
  /-- Raised by an arm of `exec` whose instruction has no meaning yet; every instruction has one, so by none. Safe. -/
  | notModelled (mnemonic : String)
  /-- Raised by `step` for a request whose `op` names no operation: "the machine refuses such a request (it has no step
  and changes no state)" (R63). Safe (log 20). -/
  | reservedRequest (op : BitVec 5)
  deriving DecidableEq, Repr

/-- The block's state: the descriptor store, RAM, `SYS` and `PID` (R7), the parameters of the machine (R5), and three
fields of the model's own. -/
structure State where
  /-- The open parameters of R5; no operation changes them (R17; log 5). -/
  cfg : Params
  /-- `DS.up[i]` by descriptor index (R11). -/
  up : List (Nat × BitVec 16)
  /-- `DS.lo[i]` by descriptor index (R11). -/
  lo : List (Nat × BitVec 16)
  /-- `RAM[o]` by physical offset (R17). -/
  ram : List Host.Cell
  /-- `SYS`, one bit: true in system mode (R18). -/
  sys : Bool
  /-- `PID` (R19). -/
  pid : Byte
  /-- The model's own: the requests issued and not yet performed, oldest first (R6, R61; log 6). -/
  requests : List Request
  /-- The model's own: what the last operation handed back; no operation reads it (log 8). -/
  response : Response
  /-- The model's own: how many writing operations took effect, the counter of the free value (R144; log 9). -/
  writes : Nat
  deriving DecidableEq, Repr

/-- RAM's canonical form: offsets strictly rising, no byte listed that reads as an unlisted one. -/
abbrev Memory.wf (m : List Host.Cell) : Prop := cellsCanonical m = true

/-- The state after reset. The spec gives no reset value (R25 to R27); the values stand in log 1 to 4 and log 6, 8, 9.
RAM_SIZE is R5's default, 8 MiB. -/
def State.reset : State where
  cfg := { ramFrameBits := 11, secondaryCoreId := 1 }
  up := []
  lo := []
  ram := []
  sys := false
  pid := 0#8
  requests := []
  response := .nothing
  writes := 0

end Sys2Proof.Machine
end

