-- ==== Sys2Proof/Machine/Flags.lean ====
section
/-! DEFINITION. The fields of a descriptor and their encoding (R50 to R54, R74, R75), the referenced and altered flags
(R93), the permission evaluator and its collapse to a category (R80 to R84), and the free code of R142. -/

namespace Sys2Proof.Machine

/-- The named fields of a descriptor (R12). A record that names no `spare` has 0 there (R75). -/
structure Descriptor where
  physicalPage : BitVec 13
  readDisabled : Bool
  writeDisabled : Bool
  execDisabled : Bool
  ownerId : Byte
  spare : BitVec 6 := 0#6
  referenced : Bool
  altered : Bool
  deriving DecidableEq, Repr

/-- `physical_page = lo[12:0]` (R74). -/
def physicalPage (lo : Half) : BitVec 13 := lo.extractLsb' layout.physicalPageLsb 13

/-- `owner_id = up[15:8]` (R74). -/
def ownerId (up : Half) : Byte := up.extractLsb' layout.ownerLsb 8

/-- `decode(up, lo)` (R74). -/
def decodeDescriptor (up lo : Half) : Descriptor where
  physicalPage := physicalPage lo
  readDisabled := lo.getLsbD layout.readDisabledBit
  writeDisabled := lo.getLsbD layout.writeDisabledBit
  execDisabled := lo.getLsbD layout.execDisabledBit
  ownerId := ownerId up
  spare := up.extractLsb' layout.spareLsb 6
  referenced := up.getLsbD layout.referencedBit
  altered := up.getLsbD layout.alteredBit

/-- A one-bit field at its place in a descriptor word. -/
def fieldBit (b : Bool) (pos : Nat) : Half := (BitVec.ofBool b).setWidth 16 <<< pos

/-- The upper word of `encode(fields)` (R75). -/
def encodeUpper (d : Descriptor) : Half :=
  d.ownerId.setWidth 16 <<< layout.ownerLsb ||| d.spare.setWidth 16 <<< layout.spareLsb |||
    fieldBit d.referenced layout.referencedBit ||| fieldBit d.altered layout.alteredBit

/-- The lower word of `encode(fields)` (R75). -/
def encodeLower (d : Descriptor) : Half :=
  fieldBit d.readDisabled layout.readDisabledBit ||| fieldBit d.writeDisabled layout.writeDisabledBit |||
    fieldBit d.execDisabled layout.execDisabledBit ||| d.physicalPage.setWidth 16 <<< layout.physicalPageLsb

/-- `L32 = {lo, up}`, the value the evaluator works on (R52). -/
def logicalValue (up lo : Half) : Word := lo ++ up

/-- `B32 = {up, lo}`, what a 32-bit access at `BA = 4i` moves (R53). -/
def busImage (up lo : Half) : Word := up ++ lo

/-- The bits an access sets in the upper word: referenced always, altered on a write (R93). -/
def accessFlags (isWrite : Bool) : Half :=
  fieldBit true layout.referencedBit ||| fieldBit isWrite layout.alteredBit

/-- `ACC32(acc)`: the request bits at the places of the disable bits (R56). -/
def accessMask (acc : BitVec 3) : Word := acc.setWidth 32 <<< layout.accessLsb

/-- `PROT_MASK` (R56). -/
def protMask : Word := 7#32 <<< layout.accessLsb

/-- Step 1 of the evaluator (R81): "`forbidden = descriptor.disable_bits & access_flags`". -/
def forbidden (up lo : Half) (acc : BitVec 3) : Word :=
  logicalValue up lo &&& accessMask acc &&& protMask

/-- Step 2 of the evaluator (R82): the owner id over the 0xFF sentinel, unless a system access or the owner's own. -/
def ownershipPart (up : Half) (isSys : Bool) (pid : Byte) : Word :=
  if isSys = false ∧ ownerId up ≠ pid then
    (ownerId up).setWidth 32 <<< layout.faultOwnerLsb ||| 0xFF#32 <<< layout.sentinelLsb
  else 0#32

/-- `evaluate` (R83). It keeps its own `isSys` argument (R141). -/
def evaluate (up lo : Half) (acc : BitVec 3) (isSys : Bool) (pid : Byte) : Word :=
  forbidden up lo acc ||| ownershipPart up isSys pid

/-- `collapse` (R84): the sentinel byte is tested first, so ownership takes precedence (D6; log 17). -/
def collapse (code : Word) : Category :=
  if code.extractLsb' layout.sentinelLsb 8 ≠ 0#8 then .ownershipFault
  else if code ≠ 0#32 then .protectionFault
  else .ok

/-- The number R60 gives a category (D5). -/
def Category.number : Category → Nat
  | .ok => 0
  | .protectionFault => 1
  | .ownershipFault => 2

/-- The composite code of a user-mode pre-check above the ceiling: the free draw over the codes that are nonzero with a
zero low byte, which is all R142 says of it. A claim that needs more of its value cannot be proved (D15; log 9). -/
def ceilingFaultCode (writes : Nat) (va : Word) (acc : BitVec 3) : Word :=
  BitVec.ofNat 32 (256 * ((Config.ceilingFaultDraw writes va acc).val + 1))

end Sys2Proof.Machine
end

