-- ==== Sys2Proof/Machine/Operands.lean ====
section
/-! DEFINITION. Operand forms: descriptor-bus addresses and byte lanes (R33, R36, R39), virtual addresses (R91, R92,
R94), and the data bits an operation uses (R65). -/

namespace Sys2Proof.Machine

/-- `h = BA >> 1` (R33): BA counts bytes and bit 0 selects no halfword (R39). -/
def halfIndex (ba : Word) : Nat := (ba >>> 1).toNat

/-- `i = h >> 1` (R100). -/
def halfDescriptor (h : Nat) : Nat := h / 2

/-- `h` odd selects the lower word (R100). -/
def halfIsLower (h : Nat) : Bool := h % 2 == 1

/-- The byte of a halfword that `BA` names: bits 15:8 at an even address, 7:0 at an odd one (R36, R103). -/
def laneRead (ba : Word) (w : Half) : Byte :=
  if ba.getLsbD 0 then w.extractLsb' 0 8 else w.extractLsb' 8 8

/-- The halfword with the byte that `BA` names replaced (R106). -/
def laneMerge (ba : Word) (w : Half) (b : Byte) : Half :=
  if ba.getLsbD 0 then w.extractLsb' 8 8 ++ b else b ++ w.extractLsb' 0 8

/-- `p = VA >> 12` (R91). -/
def pageIndex (va : Word) : Nat := (va >>> pageShift).toNat

/-- `idx = p + 2048*SYS` (R92, R143). -/
def descIndex (va : Word) (sys : Bool) : Nat := pageIndex va + (if sys then sysBase else 0)

/-- `raw = (zext_25(ppn) << 12) | (va & 0xFFF)`, 25 bits (R94). -/
def rawOffset (ppn : BitVec 13) (va : Word) : BitVec 25 :=
  (ppn.setWidth 25 <<< pageShift) ||| (va &&& offsetMask).setWidth 25

/-- `data[7:0]` (R65). -/
def dataByte (data : Word) : Byte := data.extractLsb' 0 8

/-- `data[15:0]` (R65). -/
def dataHalf (data : Word) : Half := data.extractLsb' 0 16

/-- `data[31:16]` (R107). -/
def dataHighHalf (data : Word) : Half := data.extractLsb' 16 16

/-- `data[0]` (R151). -/
def dataBit (data : Word) : Bool := data.getLsbD 0

end Sys2Proof.Machine
end

