-- ==== Sys2Proof/Machine/Ops.lean ====
section
/-! DEFINITION. The named updates of the state, the primitives of the descriptor store (R70 to R73, R101), of RAM (R37),
the abort (R165), and how an operation ends. The block takes no exception and returns from none (R167 to R169): the abort
is its only abnormal end. -/

namespace Sys2Proof.Machine

/-- `DS.up[i] <- w`. -/
def State.putUpper (s : State) (i : Nat) (w : Half) : State := { s with up := cellWrite s.up i w }

/-- `DS.lo[i] <- w`. -/
def State.putLower (s : State) (i : Nat) (w : Half) : State := { s with lo := cellWrite s.lo i w }

/-- `RAM[o] <- b`. -/
def State.putByte (s : State) (o : Nat) (b : Byte) : State := { s with ram := cellWrite s.ram o b }

/-- `SYS <- b`. -/
def State.putSys (s : State) (b : Bool) : State := { s with sys := b }

/-- `PID <- b`. -/
def State.putPid (s : State) (b : Byte) : State := { s with pid := b }

/-- The value `return v` hands back. -/
def State.respond (s : State) (r : Response) : State := { s with response := r }

/-- A writing operation took effect: the next free code is drawn anew (R144; log 9). -/
def State.countWrite (s : State) : State := { s with writes := s.writes + 1 }

/-- `raise Abort(AssertRange)` (R165): the operation does not complete. -/
def raiseAbort {α : Type} : Except Fault α := .error .assertRange

/-- `DS_get(i)` (R71). -/
def dsGet (s : State) (i : Nat) : Except Fault (Half × Half) :=
  if descCount ≤ i then raiseAbort else .ok (cellRead s.up i, cellRead s.lo i)

/-- `DS_set_upper(i, w)` (R72). -/
def dsSetUpper (s : State) (i : Nat) (w : Half) : Except Fault State :=
  if descCount ≤ i then raiseAbort else .ok (s.putUpper i w)

/-- `DS_set_lower(i, w)` (R73). -/
def dsSetLower (s : State) (i : Nat) (w : Half) : Except Fault State :=
  if descCount ≤ i then raiseAbort else .ok (s.putLower i w)

/-- `half_read(h)` (R101). -/
def halfRead (s : State) (h : Nat) : Except Fault Half :=
  match dsGet s (halfDescriptor h) with
  | .error f => .error f
  | .ok (up, lo) => .ok (if halfIsLower h then lo else up)

/-- `half_write(h, w)` (R101). -/
def halfWrite (s : State) (h : Nat) (w : Half) : Except Fault State :=
  if halfIsLower h then dsSetLower s (halfDescriptor h) w else dsSetUpper s (halfDescriptor h) w

/-- `RAM_SIZE` in bytes (R5). -/
def ramSize (c : Params) : Nat := pageSize * 2 ^ c.ramFrameBits

/-- Where byte `k` of an access at offset `o` lies: each byte index wraps at RAM_SIZE (R37, D12; log 13). -/
def ramIndex (c : Params) (o k : Nat) : Nat := (o + k) % ramSize c

/-- `MemRead(o, n)` (R37), zero-extended: the first byte is the most significant (R34). -/
def memRead (s : State) (o : Nat) : Nat → Word
  | 0 => 0#32
  | n + 1 => memRead s o n <<< 8 ||| (cellRead s.ram (ramIndex s.cfg o n)).setWidth 32

/-- `MemWrite(o, n, v)` (R37): the last of the n bytes takes `v[7:0]`, those before it the rest of `v`. -/
def memWrite (s : State) (o : Nat) : Nat → Word → State
  | 0, _ => s
  | n + 1, v => (memWrite s o n (v >>> 8)).putByte (ramIndex s.cfg o n) (v.extractLsb' 0 8)

/-- An operation that changes nothing but hands back `r`. -/
def complete (s : State) (r : Response) : Host.Outcome State Fault Refusal := .next (s.respond r)

/-- A writing operation that took effect: it hands back no value. -/
def completeWrite (s : State) : Host.Outcome State Fault Refusal := .next (s.countWrite.respond .done)

end Sys2Proof.Machine
end

