-- ==== Sys2Proof/Machine/Context.lean ====
section
/-! DEFINITION. The context-register operations: SETSYS, SETPID (R150 to R154). -/

namespace Sys2Proof.Machine

/-- SETSYS (R151): `SYS <- data[0]`. -/
def execSetsys (data : Word) (s : State) : Host.Outcome State Fault Refusal :=
  completeWrite (s.putSys (dataBit data))

/-- SETPID (R152): `PID <- data[7:0]`. -/
def execSetpid (data : Word) (s : State) : Host.Outcome State Fault Refusal :=
  completeWrite (s.putPid (dataByte data))

end Sys2Proof.Machine
end

