-- ==== Sys2Proof/Machine/DescriptorBus.lean ====
section
/-! DEFINITION. The Descriptor Bus Interface: DRD8, DRD16, DRD32, DWR8, DWR16, DWR32 (R100 to R109). -/

namespace Sys2Proof.Machine

/-- A read ends with the value read, or with the abort of a halfword access out of range (R109). -/
def finishRead (s : State) (value : Except Fault Word) : Host.Outcome State Fault Refusal :=
  match value with
  | .error f => .fault f
  | .ok v => complete s (.data v)

/-- A write by `cpu`: the initiator is compared with SECONDARY_CORE_ID first, and on equality "the operation completes
normally, reports nothing, and changes no state" (R108); else the write takes effect or aborts (R109). -/
def finishWrite (s : State) (cpu : CoreId) (written : Except Fault State) : Host.Outcome State Fault Refusal :=
  if cpu = s.cfg.secondaryCoreId then complete s .done
  else
    match written with
    | .error f => .fault f
    | .ok t => completeWrite t

/-- `DRD8 BA` (R103): the byte lane of one halfword. -/
def readLane (s : State) (ba : Word) : Except Fault Word :=
  match halfRead s (halfIndex ba) with
  | .error f => .error f
  | .ok w => .ok ((laneRead ba w).setWidth 32)

/-- `DRD16 BA` (R102): one halfword. -/
def readHalf (s : State) (ba : Word) : Except Fault Word :=
  match halfRead s (halfIndex ba) with
  | .error f => .error f
  | .ok w => .ok (w.setWidth 32)

/-- `DRD32 BA` (R104): two halfwords, the most significant first. -/
def readPair (s : State) (ba : Word) : Except Fault Word :=
  match halfRead s (halfIndex ba) with
  | .error f => .error f
  | .ok hi =>
    match halfRead s (halfIndex ba + 1) with
    | .error f => .error f
    | .ok lo => .ok (hi ++ lo)

/-- `DWR8 BA, data` (R106): read, merge the byte lane, write. -/
def writeLane (s : State) (ba data : Word) : Except Fault State :=
  match halfRead s (halfIndex ba) with
  | .error f => .error f
  | .ok w => halfWrite s (halfIndex ba) (laneMerge ba w (dataByte data))

/-- `DWR16 BA, data` (R105). -/
def writeHalf (s : State) (ba data : Word) : Except Fault State :=
  halfWrite s (halfIndex ba) (dataHalf data)

/-- `DWR32 BA, data` (R107): `data[31:16]` to the first halfword, `data[15:0]` to the next. -/
def writePair (s : State) (ba data : Word) : Except Fault State :=
  match halfWrite s (halfIndex ba) (dataHighHalf data) with
  | .error f => .error f
  | .ok t => halfWrite t (halfIndex ba + 1) (dataHalf data)

/-- DRD8 (R103). -/
def execDrd8 (ba : Word) (s : State) : Host.Outcome State Fault Refusal := finishRead s (readLane s ba)

/-- DRD16 (R102). -/
def execDrd16 (ba : Word) (s : State) : Host.Outcome State Fault Refusal := finishRead s (readHalf s ba)

/-- DRD32 (R104). -/
def execDrd32 (ba : Word) (s : State) : Host.Outcome State Fault Refusal := finishRead s (readPair s ba)

/-- DWR8 (R106). -/
def execDwr8 (ba data : Word) (cpu : CoreId) (s : State) : Host.Outcome State Fault Refusal :=
  finishWrite s cpu (writeLane s ba data)

/-- DWR16 (R105). -/
def execDwr16 (ba data : Word) (cpu : CoreId) (s : State) : Host.Outcome State Fault Refusal :=
  finishWrite s cpu (writeHalf s ba data)

/-- DWR32 (R107). -/
def execDwr32 (ba data : Word) (cpu : CoreId) (s : State) : Host.Outcome State Fault Refusal :=
  finishWrite s cpu (writePair s ba data)

end Sys2Proof.Machine
end

