-- ==== Sys2Proof/Machine/Precheck.lean ====
section
/-! DEFINITION. The pre-check port: CHK (R140 to R145). -/

namespace Sys2Proof.Machine

/-- The ceiling rule (R142): no descriptor is consulted; legal in system mode only. -/
def checkAboveCeiling (s : State) (va : Word) (acc : BitVec 3) : Response :=
  if s.sys then .check .ok 0#32 else .check .protectionFault (ceilingFaultCode s.writes va acc)

/-- What `CHK` answers for a page's descriptor: the composite code and the category it collapses to (R145). -/
def checkDescriptor (s : State) (acc : BitVec 3) (up lo : Half) : Response :=
  .check (collapse (evaluate up lo acc s.sys s.pid)) (evaluate up lo acc s.sys s.pid)

/-- CHK (R140): the ceiling first, then the descriptor the access would translate through (R143). It changes no state and
raises nothing (R144). -/
def execChk (va : Word) (acc : BitVec 3) (s : State) : Host.Outcome State Fault Refusal :=
  if vaCeiling ≤ va.toNat then complete s (checkAboveCeiling s va acc)
  else
    match dsGet s (descIndex va s.sys) with
    | .error f => .fault f
    | .ok (up, lo) => complete s (checkDescriptor s acc up lo)

end Sys2Proof.Machine
end

