-- ==== Sys2Proof/Machine/Translate.lean ====
section
/-! DEFINITION. The Address Translator (R90 to R95). -/

namespace Sys2Proof.Machine

/-- The physical offset a descriptor's lower word gives an address: `raw mod RAM_SIZE`, a wrap and never a fault (R94). -/
def physicalOffset (c : Params) (lo : Half) (va : Word) : Nat :=
  (rawOffset (physicalPage lo) va).toNat % ramSize c

/-- Where a RAM-bus access at `va` goes in this state: through the lower word of the descriptor that `SYS` and the page
select (R92, R94). -/
def targetOffset (s : State) (va : Word) : Nat :=
  physicalOffset s.cfg (cellRead s.lo (descIndex va s.sys)) va

/-- `DS.up[idx] <- DS.up[idx] | 0x0002 | (is_write ? 0x0001 : 0)` (R93, D23). -/
def markAccess (s : State) (idx : Nat) (isWrite : Bool) : State :=
  s.putUpper idx (cellRead s.up idx ||| accessFlags isWrite)

/-- `translate(va, is_write, SYS)` (R95): the page range first, before any state is changed (R91); then the flags and the
offset. It never consults the evaluator. -/
def translate (s : State) (va : Word) (isWrite : Bool) : Except Fault (State × Nat) :=
  if userPages ≤ pageIndex va then raiseAbort
  else .ok (markAccess s (descIndex va s.sys) isWrite, targetOffset s va)

end Sys2Proof.Machine
end

