-- ==== Sys2Proof/Machine/RamBus.lean ====
section
/-! DEFINITION. The RAM Bus Interface: RRD8, RRD16, RRD32, RWR8, RWR16, RWR32 (R120 to R130). Each translates once, never
checks a permission and never looks at the initiator. -/

namespace Sys2Proof.Machine

/-- A read of `n` bytes: one translation, then `MemRead` (R120, R129). -/
def ramRead (s : State) (va : Word) (n : Nat) : Host.Outcome State Fault Refusal :=
  match translate s va false with
  | .error f => .fault f
  | .ok (t, o) => complete t (.data (memRead t o n))

/-- A write of `n` bytes: one translation, then `MemWrite` (R120, R129). -/
def ramWrite (s : State) (va : Word) (n : Nat) (data : Word) : Host.Outcome State Fault Refusal :=
  match translate s va true with
  | .error f => .fault f
  | .ok (t, o) => completeWrite (memWrite t o n data)

/-- RRD8 (R121). -/
def execRrd8 (va : Word) (s : State) : Host.Outcome State Fault Refusal := ramRead s va 1

/-- RRD16 (R122). -/
def execRrd16 (va : Word) (s : State) : Host.Outcome State Fault Refusal := ramRead s va 2

/-- RRD32 (R123). -/
def execRrd32 (va : Word) (s : State) : Host.Outcome State Fault Refusal := ramRead s va 4

/-- RWR8 (R124): `data[7:0]`. -/
def execRwr8 (va data : Word) (s : State) : Host.Outcome State Fault Refusal :=
  ramWrite s va 1 ((dataByte data).setWidth 32)

/-- RWR16 (R125): `data[15:0]`. -/
def execRwr16 (va data : Word) (s : State) : Host.Outcome State Fault Refusal :=
  ramWrite s va 2 ((dataHalf data).setWidth 32)

/-- RWR32 (R126). -/
def execRwr32 (va data : Word) (s : State) : Host.Outcome State Fault Refusal := ramWrite s va 4 data

end Sys2Proof.Machine
end

