-- ==== Sys2Proof/Machine/Dispatch.lean ====
section
/-! DEFINITION. The meaning of every operation, one arm per constructor. -/

namespace Sys2Proof.Machine

/-- One operation performed on one state (R8, R40). -/
def exec (i : Instr) (s : State) : Host.Outcome State Fault Refusal :=
  match i with
  | .drd8 ba => Sys2Proof.Machine.execDrd8 ba s
  | .drd16 ba => Sys2Proof.Machine.execDrd16 ba s
  | .drd32 ba => Sys2Proof.Machine.execDrd32 ba s
  | .dwr8 ba data cpu => Sys2Proof.Machine.execDwr8 ba data cpu s
  | .dwr16 ba data cpu => Sys2Proof.Machine.execDwr16 ba data cpu s
  | .dwr32 ba data cpu => Sys2Proof.Machine.execDwr32 ba data cpu s
  | .rrd8 va => Sys2Proof.Machine.execRrd8 va s
  | .rrd16 va => Sys2Proof.Machine.execRrd16 va s
  | .rrd32 va => Sys2Proof.Machine.execRrd32 va s
  | .rwr8 va data => Sys2Proof.Machine.execRwr8 va data s
  | .rwr16 va data => Sys2Proof.Machine.execRwr16 va data s
  | .rwr32 va data => Sys2Proof.Machine.execRwr32 va data s
  | .chk va acc => Sys2Proof.Machine.execChk va acc s
  | .setsys data => Sys2Proof.Machine.execSetsys data s
  | .setpid data => Sys2Proof.Machine.execSetpid data s

end Sys2Proof.Machine
end

