-- ==== Sys2Proof/Machine/Fetch.lean ====
section
/-! DEFINITION. How a step gets its request: the oldest of those the cores have issued (R40; log 6). The block fetches no
instructions and has no program counter (R21). -/

namespace Sys2Proof.Machine

/-- The oldest pending request, and the state in which it is performed. -/
def fetchRequest (s : State) : Option (Request × State) :=
  match s.requests with
  | [] => none
  | r :: rest => some (r, { s with requests := rest })

/-- The state with `r` issued ahead of every pending request. -/
def placeRequest (s : State) (r : Request) : State := { s with requests := r :: s.requests }

end Sys2Proof.Machine
end

