-- ==== Sys2Proof/Machine/Step.lean ====
section
/-! DEFINITION. One step: the oldest pending request decoded and performed as one atomic operation (R40, R41). -/

namespace Sys2Proof.Machine

/-- With no request pending the block holds its state ("invoked synchronously, once per emulated bus access", R40; DESIGN
CHOICE, safe, log 6). A reserved code is refused (R63). -/
def step (s : State) : Host.Outcome State Fault Refusal :=
  match fetchRequest s with
  | none => .next s
  | some (r, t) =>
    match decodeRequest r with
    | .error (.reservedOp op) => .refused (.reservedRequest op)
    | .ok i => exec i t

/-- `s` with the request of an opcode word issued next, every later bit of the request being 0. -/
def State.withFetchWord (s : State) (nbits w : Nat) : State :=
  placeRequest s (Request.ofNat (w % 2 ^ nbits))

end Sys2Proof.Machine
end

