-- ==== Sys2Proof/Safety.lean ====
section
/-! DEFINITION. What a legal state of the block is, and what the spec's own part of a state is, in the terms claims
use. -/

namespace Sys2Proof.Machine

/-- The category and the code that `CHK` returns belong together (R145). -/
def Response.consistent : Response → Bool
  | .check category code => decide (collapse code = category)
  | .nothing => true
  | .done => true
  | .data _ => true

/-- The legal states: the store has no entry beyond its 4096 (R10), RAM none beyond RAM_SIZE (R17), all three in canonical
form, and the last result of `CHK`, if that is what was handed back last, is one its code collapses to (R145). -/
def LegalState (s : State) : Prop :=
  (cellsCanonical s.up = true ∧ cellsBelow 4096 s.up = true) ∧
  (cellsCanonical s.lo = true ∧ cellsBelow 4096 s.lo = true) ∧
  (Memory.wf s.ram ∧ cellsBelow (ramSize s.cfg) s.ram = true) ∧
  s.response.consistent = true

/-- The word the descriptor bus shows at halfword index `h`: the upper word of descriptor `h/2` when `h` is even, the
lower word when `h` is odd (R100). -/
def wordAt (s : State) (h : Nat) : Half :=
  if h % 2 = 1 then cellRead s.lo (h / 2) else cellRead s.up (h / 2)

/-- The state with that word replaced. -/
def withWordAt (s : State) (h : Nat) (w : Half) : State :=
  if h % 2 = 1 then { s with lo := cellWrite s.lo (h / 2) w } else { s with up := cellWrite s.up (h / 2) w }

/-- `RAM[(o + k) mod RAM_SIZE]` (R37). -/
def ramAt (s : State) (o k : Nat) : Byte := cellRead s.ram ((o + k) % ramSize s.cfg)

/-- The state R7 gives the block: the store, RAM, `SYS` and `PID`, equal in both states. -/
def sameBlockState (s t : State) : Prop :=
  t.up = s.up ∧ t.lo = s.lo ∧ t.ram = s.ram ∧ t.sys = s.sys ∧ t.pid = s.pid

/-- The parameters and the requests still waiting, which no operation changes, equal in both states. -/
def sameSurroundings (s t : State) : Prop :=
  t.cfg = s.cfg ∧ t.requests = s.requests

end Sys2Proof.Machine
end

