-- ==== Sys2Proof/WellFormed.lean ====
section
/-! DEFINITION. The callers' duty on an operation's address (R166, R185). The block takes every operand value of every
operation (R54, R55, R61 reserve none); this check says which addresses the bus dispatch may route to it. -/

namespace Sys2Proof

/-- R185: "only addresses below 0x800000" reach the RAM bus, and "only byte addresses up to 0x3FFF (0x3FFD for 32-bit
accesses)" the descriptor bus. CHK takes every address (R140), SETSYS and SETPID have none (R61). -/
def Instr.wellFormed : Instr → Bool
  | .drd8 ba => ba.toNat ≤ 0x3FFF
  | .drd16 ba => ba.toNat ≤ 0x3FFF
  | .drd32 ba => ba.toNat ≤ 0x3FFD
  | .dwr8 ba _ _ => ba.toNat ≤ 0x3FFF
  | .dwr16 ba _ _ => ba.toNat ≤ 0x3FFF
  | .dwr32 ba _ _ => ba.toNat ≤ 0x3FFD
  | .rrd8 va => va.toNat < 0x800000
  | .rrd16 va => va.toNat < 0x800000
  | .rrd32 va => va.toNat < 0x800000
  | .rwr8 va _ => va.toNat < 0x800000
  | .rwr16 va _ => va.toNat < 0x800000
  | .rwr32 va _ => va.toNat < 0x800000
  | .chk _ _ => true
  | .setsys _ => true
  | .setpid _ => true

end Sys2Proof
end

