-- ==== Sys2Proof/Certificates/Slice0/Obligations.lean ====
section
/-! DEFINITION. The statements for the provers. Bit positions in them are those of R50, R51, R55 and R58, which the spec
marks as its own decisions D1 to D4 (log 11); "log n" is notes/assumptions/n.md. -/

open Sys2Proof Sys2Proof.Machine

/-- R61, R62, R65. Decoding the packed request of any operation gives the operation back, every operand at every value.
The packing is the model's (log 7). -/
def Obligations.EveryOperationSurvivesPacking : Prop :=
  ∀ i : Instr, decodeWord (encodeWord i) = .ok i

/-- R61. A request and the number it is packed in determine each other. The packing is the model's (log 7). -/
def Obligations.RequestsAndNumbersCorrespond : Prop :=
  (∀ r : Request, Request.ofNat r.toNat = r) ∧ (∀ w : Nat, (Request.ofNat w).toNat = w)

/-- R62. The full map from `op` to the operation, with the fields each operation takes from the request (R61). -/
def Obligations.OpCodesSelectTheirOperations : Prop :=
  ∀ (cpu : CoreId) (addr data : Word) (acc : BitVec 3),
    let req : BitVec 5 → Request := fun op => { op := op, cpu := cpu, addr := addr, data := data, acc := acc }
    decodeRequest (req 0b00000#5) = .ok (.drd8 addr) ∧
    decodeRequest (req 0b00001#5) = .ok (.drd16 addr) ∧
    decodeRequest (req 0b00010#5) = .ok (.drd32 addr) ∧
    decodeRequest (req 0b00100#5) = .ok (.dwr8 addr data cpu) ∧
    decodeRequest (req 0b00101#5) = .ok (.dwr16 addr data cpu) ∧
    decodeRequest (req 0b00110#5) = .ok (.dwr32 addr data cpu) ∧
    decodeRequest (req 0b01000#5) = .ok (.rrd8 addr) ∧
    decodeRequest (req 0b01001#5) = .ok (.rrd16 addr) ∧
    decodeRequest (req 0b01010#5) = .ok (.rrd32 addr) ∧
    decodeRequest (req 0b01100#5) = .ok (.rwr8 addr data) ∧
    decodeRequest (req 0b01101#5) = .ok (.rwr16 addr data) ∧
    decodeRequest (req 0b01110#5) = .ok (.rwr32 addr data) ∧
    decodeRequest (req 0b10000#5) = .ok (.chk addr acc) ∧
    decodeRequest (req 0b11100#5) = .ok (.setsys data) ∧
    decodeRequest (req 0b11101#5) = .ok (.setpid data)

/-- R63. The seventeen codes without a mnemonic, and no others, are rejected by name; a step that meets one is refused. -/
def Obligations.ReservedCodesAreRefused : Prop :=
  ∀ r : Request,
    (r.op.toNat ∈ [0x03, 0x07, 0x0B, 0x0F, 0x11, 0x12, 0x13, 0x14, 0x15, 0x16, 0x17, 0x18, 0x19, 0x1A, 0x1B, 0x1E, 0x1F] →
      decodeRequest r = .error (.reservedOp r.op) ∧
      ∀ (s : State) (rest : List Request), s.requests = r :: rest → step s = .refused (.reservedRequest r.op)) ∧
    (r.op.toNat ∉ [0x03, 0x07, 0x0B, 0x0F, 0x11, 0x12, 0x13, 0x14, 0x15, 0x16, 0x17, 0x18, 0x19, 0x1A, 0x1B, 0x1E, 0x1F] →
      ∃ i, decodeRequest r = .ok i)

/-- R61, R130, R111, D24. An operation ignores the request fields its rule does not name: the initiator matters to DWR8,
DWR16 and DWR32 only, `acc` to CHK only, `data` to the writes, SETSYS and SETPID only, `addr` to all but those two. -/
def Obligations.UnnamedFieldsAreIgnored : Prop :=
  ∀ (r : Request) (i : Instr), decodeRequest r = .ok i →
    (r.op.toNat ∉ [0x04, 0x05, 0x06] → ∀ c, decodeRequest { r with cpu := c } = .ok i) ∧
    (r.op.toNat ≠ 0x10 → ∀ a, decodeRequest { r with acc := a } = .ok i) ∧
    (r.op.toNat ∈ [0x00, 0x01, 0x02, 0x08, 0x09, 0x0A, 0x10] → ∀ d, decodeRequest { r with data := d } = .ok i) ∧
    (r.op.toNat ∈ [0x1C, 0x1D] → ∀ a, decodeRequest { r with addr := a } = .ok i)

/-- R62. Five numbers written out bit by bit, one for each family, decode to the operations of 95_test_vectors.md P1, P2.
From the low end: five bits of `op`, three of `acc`, 32 of `addr`, 32 of `data`, then `cpu` (log 7). -/
def Obligations.SampleWordsDecode : Prop :=
  decodeWord 0b0000_00010010000000000000000000000101_00000000000000000000000000000100_000_00110 =
      .ok (.dwr32 0x00000004#32 0x12000005#32 0) ∧
  decodeWord 0b00000000000000000001001000110110_000_01001 = .ok (.rrd16 0x00001236#32) ∧
  decodeWord 0b00000000000000000000000001011010_00000000000000000010000000010000_000_01100 =
      .ok (.rwr8 0x00002010#32 0x0000005A#32) ∧
  decodeWord 0b00000000000000000001001000110100_010_10000 = .ok (.chk 0x00001234#32 0b010#3) ∧
  decodeWord 0b00000000000000000000000000010010_00000000000000000000000000000000_000_11101 = .ok (.setpid 0x00000012#32)

/-- R40, R41. A step performs the operation the oldest pending request selects, on the state without that request, and
does nothing around it. That requests wait in a list is the model's (log 6). -/
def Obligations.StepPerformsTheDecodedRequest : Prop :=
  ∀ (s : State) (r : Request) (rest : List Request) (i : Instr),
    s.requests = r :: rest → decodeRequest r = .ok i → step s = exec i { s with requests := rest }

/-- R40. The block acts only when invoked: with no request pending a step holds the state. The model's choice (log 6). -/
def Obligations.StepWithoutRequestHoldsTheState : Prop :=
  ∀ s : State, s.requests = [] → step s = .next s

/-- R185, R166. A request the bus dispatch may route to the block (addresses in range) is performed: the step neither
aborts nor is refused. -/
def Obligations.RoutedRequestsComplete : Prop :=
  ∀ (s : State) (r : Request) (rest : List Request) (i : Instr),
    s.requests = r :: rest → decodeRequest r = .ok i → i.wellFormed = true → ∃ t, step s = .next t

/-- R74. The fields of a descriptor, as numbers. -/
def Obligations.DescriptorFieldsStandWhereStated : Prop :=
  ∀ up lo : Half,
    (decodeDescriptor up lo).physicalPage.toNat = lo.toNat % 8192 ∧
    (decodeDescriptor up lo).readDisabled = decide (0x8000 ≤ lo.toNat) ∧
    (decodeDescriptor up lo).writeDisabled = decide (lo.toNat / 0x4000 % 2 = 1) ∧
    (decodeDescriptor up lo).execDisabled = decide (lo.toNat / 0x2000 % 2 = 1) ∧
    (decodeDescriptor up lo).ownerId.toNat = up.toNat / 256 ∧
    (decodeDescriptor up lo).spare.toNat = up.toNat / 4 % 64 ∧
    (decodeDescriptor up lo).referenced = decide (up.toNat / 2 % 2 = 1) ∧
    (decodeDescriptor up lo).altered = decide (up.toNat % 2 = 1)

/-- R75. `encode` and `decode` are inverse both ways, `encode` concatenates the fields in the stated order, and a record
that names no `spare` encodes with 0 there. -/
def Obligations.DescriptorEncodeDecodeInverse : Prop :=
  (∀ up lo : Half, encodeUpper (decodeDescriptor up lo) = up ∧ encodeLower (decodeDescriptor up lo) = lo) ∧
  (∀ d : Descriptor, decodeDescriptor (encodeUpper d) (encodeLower d) = d) ∧
  (∀ d : Descriptor,
    (encodeLower d).toNat =
      d.readDisabled.toNat * 0x8000 + d.writeDisabled.toNat * 0x4000 + d.execDisabled.toNat * 0x2000 +
        d.physicalPage.toNat ∧
    (encodeUpper d).toNat =
      d.ownerId.toNat * 0x100 + d.spare.toNat * 4 + d.referenced.toNat * 2 + d.altered.toNat) ∧
  (∀ (page : BitVec 13) (owner : Byte) (r w x referenced altered : Bool),
    (encodeUpper
      { physicalPage := page, readDisabled := r, writeDisabled := w, execDisabled := x, ownerId := owner,
        referenced := referenced, altered := altered }).toNat / 4 % 64 = 0)

/-- R52, R53. The logical value has the lower word on top, the bus image the upper word; DRD32 at `4i` moves the bus
image, not the logical value. -/
def Obligations.LogicalValueAndBusImage : Prop :=
  (∀ up lo : Half,
    (logicalValue up lo).toNat = lo.toNat * 65536 + up.toNat ∧ (busImage up lo).toNat = up.toNat * 65536 + lo.toNat) ∧
  (∀ (s : State) (i : Nat), i < 4096 →
    exec (.drd32 (BitVec.ofNat 32 (4 * i))) s =
      .next { s with response := .data (busImage (cellRead s.up i) (cellRead s.lo i)) })

/-- R71, R72, R73. The store's primitives: what each returns or writes, that it leaves the other half and every other
entry alone, and that an index above 4095 aborts. -/
def Obligations.StorePrimitives : Prop :=
  ∀ (s : State) (i : Nat) (w : Half),
    (i ≤ 4095 →
      dsGet s i = .ok (cellRead s.up i, cellRead s.lo i) ∧
      (∃ t, dsSetUpper s i w = .ok t ∧ cellRead t.up i = w ∧ (∀ k, k ≠ i → cellRead t.up k = cellRead s.up k) ∧
        t = { s with up := t.up }) ∧
      (∃ t, dsSetLower s i w = .ok t ∧ cellRead t.lo i = w ∧ (∀ k, k ≠ i → cellRead t.lo k = cellRead s.lo k) ∧
        t = { s with lo := t.lo })) ∧
    (4095 < i →
      dsGet s i = .error .assertRange ∧ dsSetUpper s i w = .error .assertRange ∧
        dsSetLower s i w = .error .assertRange)

/-- R102 (that `BA` counts bytes and bit 0 plays no part is the spec's decision D7; log 12). DRD16: the upper word of
descriptor `BA/4` where bit 1 of `BA` is 0, the lower word where it is 1; the abort above 0x3FFF. -/
def Obligations.Drd16ReturnsTheHalfword : Prop :=
  ∀ (s : State) (ba : Word),
    (encodeRequest (.drd16 ba)).op = 0b00001#5 ∧
    (ba.toNat ≤ 0x3FFF →
      exec (.drd16 ba) s =
        .next { s with
          response := .data
            ((if ba.toNat / 2 % 2 = 0 then cellRead s.up (ba.toNat / 4) else cellRead s.lo (ba.toNat / 4)).setWidth 32) }) ∧
    (0x3FFF < ba.toNat → exec (.drd16 ba) s = .fault .assertRange)

/-- R103, R36 (the lanes are the spec's decision D8; log 12). DRD8: bits 15:8 of the halfword at an even `BA`, bits 7:0 at
an odd one. -/
def Obligations.Drd8ReturnsTheLane : Prop :=
  ∀ (s : State) (ba : Word),
    (encodeRequest (.drd8 ba)).op = 0b00000#5 ∧
    (ba.toNat ≤ 0x3FFF →
      exec (.drd8 ba) s =
        .next { s with
          response := .data
            (if ba.toNat % 2 = 0 then (wordAt s (ba.toNat / 2)).setWidth 32 >>> 8
            else (wordAt s (ba.toNat / 2)).setWidth 32 &&& 0xFF#32) }) ∧
    (0x3FFF < ba.toNat → exec (.drd8 ba) s = .fault .assertRange)

/-- R104 (byte addresses are the spec's decision D7; log 12). DRD32: halfwords `h` and `h + 1` with `h = BA/2`, the
first in the high half; the abort above 0x3FFD. -/
def Obligations.Drd32ReturnsTwoHalfwords : Prop :=
  ∀ (s : State) (ba : Word),
    (encodeRequest (.drd32 ba)).op = 0b00010#5 ∧
    (ba.toNat ≤ 0x3FFD →
      exec (.drd32 ba) s =
        .next { s with
          response := .data
            ((wordAt s (ba.toNat / 2)).setWidth 32 <<< 16 ||| (wordAt s (ba.toNat / 2 + 1)).setWidth 32) }) ∧
    (0x3FFD < ba.toNat → exec (.drd32 ba) s = .fault .assertRange)

/-- R105 (byte addresses are the spec's decision D7; that a suppressed write never aborts is its decision D17; log 12,
16). DWR16: `data[15:0]` to the word `BA` names, nothing for the secondary master, the abort above 0x3FFF. The counter
`writes` is the model's own (log 9). -/
def Obligations.Dwr16WritesTheHalfword : Prop :=
  ∀ (s : State) (ba data : Word) (cpu : CoreId),
    (encodeRequest (.dwr16 ba data cpu)).op = 0b00101#5 ∧
    (cpu = s.cfg.secondaryCoreId → exec (.dwr16 ba data cpu) s = .next { s with response := .done }) ∧
    (cpu ≠ s.cfg.secondaryCoreId → ba.toNat ≤ 0x3FFF → ba.toNat / 2 % 2 = 0 →
      exec (.dwr16 ba data cpu) s =
        .next { s with up := cellWrite s.up (ba.toNat / 4) (data.setWidth 16), writes := s.writes + 1, response := .done }) ∧
    (cpu ≠ s.cfg.secondaryCoreId → ba.toNat ≤ 0x3FFF → ba.toNat / 2 % 2 = 1 →
      exec (.dwr16 ba data cpu) s =
        .next { s with lo := cellWrite s.lo (ba.toNat / 4) (data.setWidth 16), writes := s.writes + 1, response := .done }) ∧
    (cpu ≠ s.cfg.secondaryCoreId → 0x3FFF < ba.toNat → exec (.dwr16 ba data cpu) s = .fault .assertRange)

/-- R106, R36 (the lanes are the spec's decision D8; that a suppressed write never aborts is its decision D17; log 12,
16). DWR8: one byte lane of the halfword replaced, the other written back as it was. The counter `writes` is the model's
own (log 9). -/
def Obligations.Dwr8MergesTheLane : Prop :=
  ∀ (s : State) (ba data : Word) (cpu : CoreId),
    (encodeRequest (.dwr8 ba data cpu)).op = 0b00100#5 ∧
    (cpu = s.cfg.secondaryCoreId → exec (.dwr8 ba data cpu) s = .next { s with response := .done }) ∧
    (cpu ≠ s.cfg.secondaryCoreId → ba.toNat ≤ 0x3FFF →
      exec (.dwr8 ba data cpu) s =
        .next { withWordAt s (ba.toNat / 2)
          (if ba.toNat % 2 = 0 then data.setWidth 16 <<< 8 ||| (wordAt s (ba.toNat / 2) &&& 0x00FF#16)
            else (wordAt s (ba.toNat / 2) &&& 0xFF00#16) ||| (data.setWidth 16 &&& 0x00FF#16)) with
          writes := s.writes + 1, response := .done }) ∧
    (cpu ≠ s.cfg.secondaryCoreId → 0x3FFF < ba.toNat → exec (.dwr8 ba data cpu) s = .fault .assertRange)

/-- R107 (byte addresses are the spec's decision D7; that a suppressed write never aborts is its decision D17; log 12,
16). DWR32: `data[31:16]` to halfword `h = BA/2`, `data[15:0]` to halfword `h + 1`; the abort above 0x3FFD. The counter
`writes` is the model's own (log 9). -/
def Obligations.Dwr32WritesTwoHalfwords : Prop :=
  ∀ (s : State) (ba data : Word) (cpu : CoreId),
    (encodeRequest (.dwr32 ba data cpu)).op = 0b00110#5 ∧
    (cpu = s.cfg.secondaryCoreId → exec (.dwr32 ba data cpu) s = .next { s with response := .done }) ∧
    (cpu ≠ s.cfg.secondaryCoreId → ba.toNat ≤ 0x3FFD →
      exec (.dwr32 ba data cpu) s =
        .next { withWordAt (withWordAt s (ba.toNat / 2) ((data >>> 16).setWidth 16)) (ba.toNat / 2 + 1) (data.setWidth 16) with
          writes := s.writes + 1, response := .done }) ∧
    (cpu ≠ s.cfg.secondaryCoreId → 0x3FFD < ba.toNat → exec (.dwr32 ba data cpu) s = .fault .assertRange)

/-- R108, R111, R164. A descriptor write by the secondary master completes and changes no state of the block, whatever its
address: it never aborts (that part is the spec's decision D17; log 16). -/
def Obligations.SecondaryMasterWritesAreDiscarded : Prop :=
  ∀ (s : State) (ba data : Word),
    ∀ i ∈ [Instr.dwr8 ba data s.cfg.secondaryCoreId, .dwr16 ba data s.cfg.secondaryCoreId,
        .dwr32 ba data s.cfg.secondaryCoreId],
      ∃ t, exec i s = .next t ∧ sameBlockState s t ∧ t.writes = s.writes ∧ t.response = .done

/-- R110 (byte addresses are the spec's decision D7; log 12). DWR32 leaves the block's state as two DWR16 do, and the
three reads then return the halves and the whole. -/
def Obligations.Dwr32EqualsTwoDwr16 : Prop :=
  ∀ (s : State) (ba v : Word) (cpu : CoreId), cpu ≠ s.cfg.secondaryCoreId → ba.toNat ≤ 0x3FFD →
    ∃ t u₁ u₂, exec (.dwr32 ba v cpu) s = .next t ∧
      exec (.dwr16 ba (v >>> 16) cpu) s = .next u₁ ∧ exec (.dwr16 (ba + 2#32) (v &&& 0xFFFF#32) cpu) u₁ = .next u₂ ∧
      sameBlockState t u₂ ∧
      exec (.drd16 ba) t = .next { t with response := .data (v >>> 16) } ∧
      exec (.drd16 (ba + 2#32)) t = .next { t with response := .data (v &&& 0xFFFF#32) } ∧
      exec (.drd32 ba) t = .next { t with response := .data v }

/-- R110 (byte addresses and lanes are the spec's decisions D7 and D8; log 12). After DWR16 the halfword reads back;
after DWR8 the byte reads back and its neighbour in the halfword reads as before. -/
def Obligations.DescriptorWritesReadBack : Prop :=
  ∀ (s : State) (ba v : Word) (cpu : CoreId), cpu ≠ s.cfg.secondaryCoreId → ba.toNat ≤ 0x3FFF →
    (∃ t, exec (.dwr16 ba v cpu) s = .next t ∧
      exec (.drd16 ba) t = .next { t with response := .data (v &&& 0xFFFF#32) }) ∧
    (∃ t, exec (.dwr8 ba v cpu) s = .next t ∧
      exec (.drd8 ba) t = .next { t with response := .data (v &&& 0xFF#32) } ∧
      ∃ x, exec (.drd8 (ba ^^^ 1#32)) s = .next { s with response := .data x } ∧
        exec (.drd8 (ba ^^^ 1#32)) t = .next { t with response := .data x })

/-- R192. `DWR8 4i+1, 0x00` clears both flags and the six unassigned bits of descriptor `i` and leaves its owner and its
lower word alone. -/
def Obligations.ByteWriteClearsFlagsKeepsOwner : Prop :=
  ∀ (s : State) (i : Nat) (cpu : CoreId), cpu ≠ s.cfg.secondaryCoreId → i < 4096 →
    ∃ t, exec (.dwr8 (BitVec.ofNat 32 (4 * i + 1)) 0#32 cpu) s = .next t ∧
      ownerId (cellRead t.up i) = ownerId (cellRead s.up i) ∧ (cellRead t.up i).setWidth 8 = 0#8 ∧
      t.lo = s.lo ∧ t.ram = s.ram

/-- R91, R92, R93, R94, R95. `translate` in its four steps: the range of the page index, the table half, the flags, and
the offset as a remainder. -/
def Obligations.TranslateFollowsItsFourSteps : Prop :=
  ∀ (s : State) (va : Word) (isWrite : Bool),
    (2048 ≤ va.toNat / 4096 → translate s va isWrite = .error .assertRange) ∧
    (va.toNat / 4096 < 2048 →
      ∃ idx, idx = va.toNat / 4096 + (if s.sys = true then 2048 else 0) ∧ idx ≤ 4095 ∧
        translate s va isWrite =
          .ok ({ s with up := cellWrite s.up idx (cellRead s.up idx ||| (if isWrite = true then 0x0003#16 else 0x0002#16)) },
            ((cellRead s.lo idx).toNat % 8192 * 4096 + va.toNat % 4096) % (4096 * 2 ^ s.cfg.ramFrameBits)))

/-- R94. The offset of an access, which the statements below name `targetOffset`: the remainder and the masked form agree,
and it lies in RAM. -/
def Obligations.TargetOffsetIsMaskedIntoRam : Prop :=
  ∀ (s : State) (va : Word),
    targetOffset s va =
      ((cellRead s.lo (descIndex va s.sys)).toNat % 8192 * 4096 + va.toNat % 4096) &&& (ramSize s.cfg - 1) ∧
    targetOffset s va < ramSize s.cfg

/-- R194. With 8 MiB of RAM, frame numbers that agree modulo 2048 name the same frame. -/
def Obligations.FramesWrapModulo2048 : Prop :=
  ∀ (c : Params) (lo₁ lo₂ : Half) (va : Word), c.ramFrameBits = 11 →
    lo₁.toNat % 2048 = lo₂.toNat % 2048 → physicalOffset c lo₁ va = physicalOffset c lo₂ va

/-- R121. RRD8 returns the byte at the offset and sets `referenced` alone. -/
def Obligations.Rrd8ReadsOneByte : Prop :=
  ∀ (s : State) (va : Word),
    (encodeRequest (.rrd8 va)).op = 0b01000#5 ∧
    (va.toNat < 0x800000 →
      exec (.rrd8 va) s =
        .next { s with
          up := cellWrite s.up (descIndex va s.sys) (cellRead s.up (descIndex va s.sys) ||| 0x0002#16)
          response := .data ((cellRead s.ram (targetOffset s va)).setWidth 32) }) ∧
    (0x800000 ≤ va.toNat → exec (.rrd8 va) s = .fault .assertRange)

/-- R122 (the wrap of the second byte is the spec's decision D12; log 13). RRD16 returns two bytes, the first the more
significant, and sets `referenced` alone. -/
def Obligations.Rrd16ReadsTwoBytes : Prop :=
  ∀ (s : State) (va : Word),
    (encodeRequest (.rrd16 va)).op = 0b01001#5 ∧
    (va.toNat < 0x800000 →
      exec (.rrd16 va) s =
        .next { s with
          up := cellWrite s.up (descIndex va s.sys) (cellRead s.up (descIndex va s.sys) ||| 0x0002#16)
          response := .data (BitVec.ofNat 32
            ((ramAt s (targetOffset s va) 0).toNat * 256 + (ramAt s (targetOffset s va) 1).toNat)) }) ∧
    (0x800000 ≤ va.toNat → exec (.rrd16 va) s = .fault .assertRange)

/-- R123 (the wrap of the later bytes is the spec's decision D12; log 13). RRD32 returns four bytes, the first the most
significant, and sets `referenced` alone. -/
def Obligations.Rrd32ReadsFourBytes : Prop :=
  ∀ (s : State) (va : Word),
    (encodeRequest (.rrd32 va)).op = 0b01010#5 ∧
    (va.toNat < 0x800000 →
      exec (.rrd32 va) s =
        .next { s with
          up := cellWrite s.up (descIndex va s.sys) (cellRead s.up (descIndex va s.sys) ||| 0x0002#16)
          response := .data (BitVec.ofNat 32
            ((ramAt s (targetOffset s va) 0).toNat * 0x1000000 + (ramAt s (targetOffset s va) 1).toNat * 0x10000 +
              (ramAt s (targetOffset s va) 2).toNat * 0x100 + (ramAt s (targetOffset s va) 3).toNat)) }) ∧
    (0x800000 ≤ va.toNat → exec (.rrd32 va) s = .fault .assertRange)

/-- R124. RWR8 stores `data[7:0]` and sets `referenced` and `altered`. The counter `writes` is the model's own (log 9).
-/
def Obligations.Rwr8WritesOneByte : Prop :=
  ∀ (s : State) (va data : Word),
    (encodeRequest (.rwr8 va data)).op = 0b01100#5 ∧
    (va.toNat < 0x800000 →
      exec (.rwr8 va data) s =
        .next { s with
          up := cellWrite s.up (descIndex va s.sys) (cellRead s.up (descIndex va s.sys) ||| 0x0003#16)
          ram := cellWrite s.ram (targetOffset s va) (data.setWidth 8)
          writes := s.writes + 1
          response := .done }) ∧
    (0x800000 ≤ va.toNat → exec (.rwr8 va data) s = .fault .assertRange)

/-- R125 (the wrap is the spec's decision D12; log 13). RWR16 stores `data[15:8]` at the offset, `data[7:0]` at the next
byte modulo RAM_SIZE, and sets both flags. The counter `writes` is the model's own (log 9). -/
def Obligations.Rwr16WritesTwoBytes : Prop :=
  ∀ (s : State) (va data : Word),
    (encodeRequest (.rwr16 va data)).op = 0b01101#5 ∧
    (va.toNat < 0x800000 →
      exec (.rwr16 va data) s =
        .next { s with
          up := cellWrite s.up (descIndex va s.sys) (cellRead s.up (descIndex va s.sys) ||| 0x0003#16)
          ram := cellWrite (cellWrite s.ram (targetOffset s va) ((data >>> 8).setWidth 8))
            ((targetOffset s va + 1) % ramSize s.cfg) (data.setWidth 8)
          writes := s.writes + 1
          response := .done }) ∧
    (0x800000 ≤ va.toNat → exec (.rwr16 va data) s = .fault .assertRange)

/-- R126 (the wrap is the spec's decision D12; log 13). RWR32 stores the four bytes of `data`, most significant first,
indices modulo RAM_SIZE, and sets both flags. The counter `writes` is the model's own (log 9). -/
def Obligations.Rwr32WritesFourBytes : Prop :=
  ∀ (s : State) (va data : Word),
    (encodeRequest (.rwr32 va data)).op = 0b01110#5 ∧
    (va.toNat < 0x800000 →
      exec (.rwr32 va data) s =
        .next { s with
          up := cellWrite s.up (descIndex va s.sys) (cellRead s.up (descIndex va s.sys) ||| 0x0003#16)
          ram := cellWrite (cellWrite (cellWrite (cellWrite s.ram (targetOffset s va) ((data >>> 24).setWidth 8))
            ((targetOffset s va + 1) % ramSize s.cfg) ((data >>> 16).setWidth 8))
            ((targetOffset s va + 2) % ramSize s.cfg) ((data >>> 8).setWidth 8))
            ((targetOffset s va + 3) % ramSize s.cfg) (data.setWidth 8)
          writes := s.writes + 1
          response := .done }) ∧
    (0x800000 ≤ va.toNat → exec (.rwr32 va data) s = .fault .assertRange)

/-- R120. The RAM bus evaluates no permission and no ownership and never reads `PID`: two states that agree on RAM, the
mode and the frame of the page's descriptor give the same value and the same RAM, whatever their disable bits, owners
and process ids. -/
def Obligations.RamBusIgnoresPermissionsAndOwner : Prop :=
  ∀ (s t : State) (va data : Word), va.toNat < 0x800000 → t.cfg = s.cfg → t.ram = s.ram → t.sys = s.sys →
    physicalPage (cellRead t.lo (descIndex va s.sys)) = physicalPage (cellRead s.lo (descIndex va s.sys)) →
    ∀ i ∈ [Instr.rrd8 va, .rrd16 va, .rrd32 va, .rwr8 va data, .rwr16 va data, .rwr32 va data],
      ∃ u v, exec i s = .next u ∧ exec i t = .next v ∧ v.response = u.response ∧ v.ram = u.ram

/-- R128. Below the ceiling a RAM-bus read completes from every state, a write completes and reports nothing, and the read
of the same width that follows it at once returns the value, cut to the width. -/
def Obligations.RamWriteThenReadReturnsTheValue : Prop :=
  ∀ (s : State) (va v : Word), va.toNat < 0x800000 →
    (∀ i ∈ [Instr.rrd8 va, .rrd16 va, .rrd32 va], ∃ u x, exec i s = .next u ∧ u.response = .data x) ∧
    (∃ t u, exec (.rwr8 va v) s = .next t ∧ t.response = .done ∧ exec (.rrd8 va) t = .next u ∧
      u.response = .data (v &&& 0xFF#32)) ∧
    (∃ t u, exec (.rwr16 va v) s = .next t ∧ t.response = .done ∧ exec (.rrd16 va) t = .next u ∧
      u.response = .data (v &&& 0xFFFF#32)) ∧
    (∃ t u, exec (.rwr32 va v) s = .next t ∧ t.response = .done ∧ exec (.rrd32 va) t = .next u ∧
      u.response = .data v)

/-- R81, R82, R83. Every bit of the composite code: a protection bit for each requested and disabled kind, and the owner
over the 0xFF sentinel for a user-mode access to another process's page. That the protection bits do not look at the
mode is the spec's own inference in R81: "the disable bits apply to system-mode accesses exactly as to user-mode ones
[derived: the source's step 1 has no condition, and only step 2 is conditioned on "NOT a system access"]". The places of
the access bits and of the code's parts are its decisions D3 and D4 (log 11). -/
def Obligations.EvaluateGivesEveryBit : Prop :=
  ∀ (up lo : Half) (acc : BitVec 3) (isSys : Bool) (pid : Byte),
    (evaluate up lo acc isSys pid).getLsbD 31 = (lo.getLsbD 15 && acc.getLsbD 2) ∧
    (evaluate up lo acc isSys pid).getLsbD 30 = (lo.getLsbD 14 && acc.getLsbD 1) ∧
    (evaluate up lo acc isSys pid).getLsbD 29 = (lo.getLsbD 13 && acc.getLsbD 0) ∧
    (evaluate up lo acc isSys pid).extractLsb' 16 13 = 0#13 ∧
    (evaluate up lo acc isSys pid).extractLsb' 0 16 =
      (if isSys = false ∧ up.extractLsb' 8 8 ≠ pid then (up &&& 0xFF00#16) ||| 0x00FF#16 else 0#16)

/-- R59. The values `evaluate` takes are exactly the codes listed: three protection bits at the top, and no ownership part
or an owner over 0xFF. -/
def Obligations.LegalFaultCodesAreExact : Prop :=
  ∀ code : Word,
    (∃ up lo acc isSys pid, evaluate up lo acc isSys pid = code) ↔
      ∃ p : BitVec 3, code = p.setWidth 32 <<< 29 ∨
        ∃ owner : Byte, code = p.setWidth 32 <<< 29 ||| owner.setWidth 32 <<< 8 ||| 0xFF#32

/-- R85 P1, P6. In system mode the category is never OwnershipFault and `PID` plays no part. -/
def Obligations.SystemModeBypassesOwnership : Prop :=
  ∀ (up lo : Half) (acc : BitVec 3) (pid pid' : Byte),
    collapse (evaluate up lo acc true pid) ≠ .ownershipFault ∧
    evaluate up lo acc true pid = evaluate up lo acc true pid'

/-- R85 P2. In user mode an owner other than the process gives OwnershipFault, whatever the permission bits and the access
type; no owner value is special (R82). -/
def Obligations.ForeignPagesGiveOwnershipFault : Prop :=
  ∀ (up lo : Half) (acc : BitVec 3) (pid : Byte), up.toNat / 256 ≠ pid.toNat →
    collapse (evaluate up lo acc false pid) = .ownershipFault

/-- R85 P3, P4. With ownership satisfied the category is ProtectionFault when a requested kind is disabled, and Ok
otherwise; requesting nothing is Ok. -/
def Obligations.OwnedPagesFollowDisableBits : Prop :=
  ∀ (up lo : Half) (acc : BitVec 3) (isSys : Bool) (pid : Byte), isSys = true ∨ up.toNat / 256 = pid.toNat →
    collapse (evaluate up lo acc isSys pid) =
      (if lo.extractLsb' 13 3 &&& acc ≠ 0#3 then .protectionFault else .ok) ∧
    collapse (evaluate up lo 0#3 isSys pid) = .ok

/-- R85 P5. The result does not depend on the frame number, the unassigned bits or the flags. -/
def Obligations.EvaluateIgnoresFrameAndFlags : Prop :=
  ∀ (up up' lo lo' : Half) (acc : BitVec 3) (isSys : Bool) (pid : Byte),
    up.toNat / 256 = up'.toNat / 256 → lo.toNat / 8192 = lo'.toNat / 8192 →
    evaluate up lo acc isSys pid = evaluate up' lo' acc isSys pid

/-- R140 (that `SYS` decides all three is the spec's decision D14, the open code its decision D15; log 9, 15). CHK: the
ceiling case first, else the evaluation of the descriptor of the page and mode; it always completes and writes no state.
Above the ceiling in user mode the code is a free value: some nonzero code with a zero low byte. -/
def Obligations.ChkAnswersCategoryAndCode : Prop :=
  ∀ (s : State) (va : Word) (acc : BitVec 3),
    (encodeRequest (.chk va acc)).op = 0b10000#5 ∧
    (0x800000 ≤ va.toNat → s.sys = true → exec (.chk va acc) s = .next { s with response := .check .ok 0#32 }) ∧
    (0x800000 ≤ va.toNat → s.sys = false →
      ∃ code : Word, code ≠ 0#32 ∧ code.toNat % 256 = 0 ∧
        exec (.chk va acc) s = .next { s with response := .check .protectionFault code }) ∧
    (va.toNat < 0x800000 →
      ∃ idx, idx = va.toNat / 4096 + (if s.sys = true then 2048 else 0) ∧
        exec (.chk va acc) s =
          .next { s with
            response := .check
              (collapse (evaluate (cellRead s.up idx) (cellRead s.lo idx) acc s.sys s.pid))
              (evaluate (cellRead s.up idx) (cellRead s.lo idx) acc s.sys s.pid) })

/-- R164. The order in which CHK chooses its category, and that a descriptor write tests its initiator before its range
(the latter is the spec's decision D17; log 16). -/
def Obligations.CategoryPriority : Prop :=
  (∀ (s : State) (va : Word) (acc : BitVec 3),
    ∃ code t, exec (.chk va acc) s = .next t ∧
      t.response = .check
        (if 0x800000 ≤ va.toNat then (if s.sys = true then .ok else .protectionFault)
          else if s.sys = false ∧ (cellRead s.up (descIndex va s.sys)).toNat / 256 ≠ s.pid.toNat then .ownershipFault
          else if (cellRead s.lo (descIndex va s.sys)).toNat / 8192 &&& acc.toNat ≠ 0 then .protectionFault
          else .ok) code) ∧
  (∀ (s : State) (ba data : Word) (cpu : CoreId) (f : Fault),
    ∀ i ∈ [Instr.dwr8 ba data cpu, .dwr16 ba data cpu, .dwr32 ba data cpu],
      exec i s = .fault f → cpu ≠ s.cfg.secondaryCoreId)

/-- R144. CHK changes nothing and repeats its answer at once. From every state, an operation that writes nothing (any read
of either bus, which may set `referenced`, or another CHK) leaves what a CHK answers as it was; so by induction on the
operations between, two CHK with no write between return the same result. No access waits for a CHK: a RAM-bus access in
range completes from every state. -/
def Obligations.ChkHasNoSideEffectAndRepeats : Prop :=
  (∀ (s : State) (va : Word) (acc : BitVec 3),
    ∃ t, exec (.chk va acc) s = .next t ∧ sameBlockState s t ∧ exec (.chk va acc) t = .next t) ∧
  (∀ (w u : State) (va a : Word) (acc acc' : BitVec 3),
    ∀ i ∈ [Instr.drd8 a, .drd16 a, .drd32 a, .rrd8 a, .rrd16 a, .rrd32 a, .chk a acc'], exec i w = .next u →
      ∃ before after, exec (.chk va acc) w = .next before ∧ exec (.chk va acc) u = .next after ∧
        after.response = before.response) ∧
  (∀ (s : State) (va data : Word), va.toNat < 0x800000 →
    ∀ i ∈ [Instr.rrd8 va, .rrd16 va, .rrd32 va, .rwr8 va data, .rwr16 va data, .rwr32 va data], ∃ u, exec i s = .next u)

/-- R151. SETSYS writes bit 0 of its datum to `SYS` and leaves the store, RAM and `PID`. The counter `writes` is the
model's own (log 9). -/
def Obligations.SetsysWritesTheModeBit : Prop :=
  ∀ (s : State) (data : Word),
    (encodeRequest (.setsys data)).op = 0b11100#5 ∧
    exec (.setsys data) s =
      .next { s with sys := decide (data.toNat % 2 = 1), writes := s.writes + 1, response := .done }

/-- R152 (that bits above 7 are dropped is the spec's decision D19; log 18). SETPID writes bits 7:0 of its datum to
`PID`. The counter `writes` is the model's own (log 9). -/
def Obligations.SetpidWritesTheProcessId : Prop :=
  ∀ (s : State) (data : Word),
    (encodeRequest (.setpid data)).op = 0b11101#5 ∧
    exec (.setpid data) s =
      .next { s with pid := BitVec.ofNat 8 (data.toNat % 256), writes := s.writes + 1, response := .done }

/-- R150. Only SETSYS changes `SYS` and only SETPID changes `PID`. -/
def Obligations.OnlySettersChangeTheContext : Prop :=
  ∀ (i : Instr) (s t : State), exec i s = .next t →
    (t.sys ≠ s.sys → ∃ data, i = .setsys data) ∧ (t.pid ≠ s.pid → ∃ data, i = .setpid data)

/-- R14. Who writes the store: lower words change only by DWR8, DWR16, DWR32; upper words by those and by the RAM bus,
which only sets `referenced` (bit 1) and, on a write, `altered` (bit 0) of one entry; everything else leaves it alone. -/
def Obligations.StoreChangesOnlyByItsWriters : Prop :=
  ∀ (i : Instr) (s t : State), exec i s = .next t →
    match i with
    | .dwr8 _ _ _ | .dwr16 _ _ _ | .dwr32 _ _ _ => True
    | .rrd8 va | .rrd16 va | .rrd32 va =>
      t.lo = s.lo ∧ ∀ j k, (cellRead t.up j).getLsbD k =
        ((cellRead s.up j).getLsbD k || (decide (j = descIndex va s.sys) && decide (k = 1)))
    | .rwr8 va _ | .rwr16 va _ | .rwr32 va _ =>
      t.lo = s.lo ∧ ∀ j k, (cellRead t.up j).getLsbD k =
        ((cellRead s.up j).getLsbD k || (decide (j = descIndex va s.sys) && (decide (k = 1) || decide (k = 0))))
    | .drd8 _ | .drd16 _ | .drd32 _ | .chk _ _ | .setsys _ | .setpid _ => t.up = s.up ∧ t.lo = s.lo

/-- R17, R184. RAM changes only by RWR8, RWR16, RWR32; its size, and the other parameter, by nothing; and no operation
touches the requests that wait. -/
def Obligations.RamChangesOnlyByRamWrites : Prop :=
  ∀ (i : Instr) (s t : State), exec i s = .next t →
    sameSurroundings s t ∧
    (t.ram ≠ s.ram → ∃ va data, i = .rwr8 va data ∨ i = .rwr16 va data ∨ i = .rwr32 va data)

/-- R162. Only CHK hands back a category. -/
def Obligations.OnlyChkHandsBackACategory : Prop :=
  ∀ (i : Instr) (s t : State) (category : Category) (code : Word),
    exec i s = .next t → t.response = .check category code → ∃ va acc, i = .chk va acc

/-- R165 (that a suppressed write never aborts is the spec's decision D17; log 16). The abort is raised in exactly the
stated cases, and no operation is refused. -/
def Obligations.AbortExactlyInTheStatedCases : Prop :=
  ∀ (i : Instr) (s : State),
    (exec i s = .fault .assertRange ↔
      match i with
      | .drd8 ba | .drd16 ba => 0x3FFF < ba.toNat
      | .drd32 ba => 0x3FFD < ba.toNat
      | .dwr8 ba _ cpu | .dwr16 ba _ cpu => cpu ≠ s.cfg.secondaryCoreId ∧ 0x3FFF < ba.toNat
      | .dwr32 ba _ cpu => cpu ≠ s.cfg.secondaryCoreId ∧ 0x3FFD < ba.toNat
      | .rrd8 va | .rrd16 va | .rrd32 va | .rwr8 va _ | .rwr16 va _ | .rwr32 va _ => 0x800000 ≤ va.toNat
      | .chk _ _ | .setsys _ | .setpid _ => False) ∧
    ∀ r, exec i s ≠ .refused r

/-- Frame of DRD8, DRD16, DRD32 and CHK (R103, R102, R104, R144): nothing changes but what is handed back; every byte of
RAM and every descriptor word reads as before. -/
def Obligations.ReadsAndChecksFrame : Prop :=
  ∀ (s t : State) (a : Word) (acc : BitVec 3),
    ∀ i ∈ [Instr.drd8 a, .drd16 a, .drd32 a, .chk a acc], exec i s = .next t →
      sameSurroundings s t ∧ t.writes = s.writes ∧ t.sys = s.sys ∧ t.pid = s.pid ∧
      (∀ j, cellRead t.up j = cellRead s.up j) ∧ (∀ j, cellRead t.lo j = cellRead s.lo j) ∧
      (∀ o, cellRead t.ram o = cellRead s.ram o)

/-- Frame of DWR8, DWR16 and DWR32 (R105, R106, R107): every halfword of the descriptor bus but the one stored to (two for
DWR32) reads as before, and so do RAM, `SYS` and `PID`. -/
def Obligations.DescriptorWritesFrame : Prop :=
  ∀ (s t : State) (ba data : Word) (cpu : CoreId),
    (∀ i ∈ [Instr.dwr8 ba data cpu, .dwr16 ba data cpu], exec i s = .next t →
      ∀ h, h ≠ halfIndex ba → wordAt t h = wordAt s h) ∧
    (exec (.dwr32 ba data cpu) s = .next t →
      ∀ h, h ≠ halfIndex ba → h ≠ halfIndex ba + 1 → wordAt t h = wordAt s h) ∧
    (∀ i ∈ [Instr.dwr8 ba data cpu, .dwr16 ba data cpu, .dwr32 ba data cpu], exec i s = .next t →
      sameSurroundings s t ∧ t.sys = s.sys ∧ t.pid = s.pid ∧ ∀ o, cellRead t.ram o = cellRead s.ram o)

/-- Frame of RRD8, RRD16, RRD32 (R121, R129): one upper word, that of the page of `VA` in the mode, may change; every
other word, `SYS`, `PID` and every byte of RAM read as before. -/
def Obligations.RamReadsFrame : Prop :=
  ∀ (s t : State) (va : Word),
    ∀ i ∈ [Instr.rrd8 va, .rrd16 va, .rrd32 va], exec i s = .next t →
      sameSurroundings s t ∧ t.writes = s.writes ∧ t.sys = s.sys ∧ t.pid = s.pid ∧
      (∀ j, j ≠ descIndex va s.sys → cellRead t.up j = cellRead s.up j) ∧
      (∀ j, cellRead t.lo j = cellRead s.lo j) ∧ (∀ o, cellRead t.ram o = cellRead s.ram o)

/-- Frame of RWR8, RWR16, RWR32 (R124 to R126, R129): one upper word and the n bytes from the target offset, indices
modulo RAM_SIZE, may change; every other word and byte, `SYS` and `PID` read as before. -/
def Obligations.RamWritesFrame : Prop :=
  ∀ (s t : State) (va data : Word) (n : Nat) (i : Instr),
    (n, i) ∈ [(1, Instr.rwr8 va data), (2, .rwr16 va data), (4, .rwr32 va data)] → exec i s = .next t →
      sameSurroundings s t ∧ t.sys = s.sys ∧ t.pid = s.pid ∧
      (∀ j, j ≠ descIndex va s.sys → cellRead t.up j = cellRead s.up j) ∧
      (∀ j, cellRead t.lo j = cellRead s.lo j) ∧
      (∀ o, (∀ k, k < n → o ≠ ramIndex s.cfg (targetOffset s va) k) → cellRead t.ram o = cellRead s.ram o)

/-- Frame of SETSYS and SETPID (R151, R152): the store and RAM read as before, and each leaves the other's register. -/
def Obligations.ContextWritesFrame : Prop :=
  ∀ (s t : State) (data : Word),
    (∀ i ∈ [Instr.setsys data, .setpid data], exec i s = .next t →
      sameSurroundings s t ∧ (∀ j, cellRead t.up j = cellRead s.up j) ∧ (∀ j, cellRead t.lo j = cellRead s.lo j) ∧
      (∀ o, cellRead t.ram o = cellRead s.ram o)) ∧
    (exec (.setsys data) s = .next t → t.pid = s.pid) ∧ (exec (.setpid data) s = .next t → t.sys = s.sys)

/-- R5's default of 8 MiB of RAM after reset, and no request to perform; every register and byte reads as the value the
model chose, the spec giving none (R25; log 1, 2, 6). -/
def Obligations.ResetLeavesTheNamedValues : Prop :=
  ramSize State.reset.cfg = 0x800000 ∧ State.reset.sys = false ∧ State.reset.pid = 0#8 ∧
  (∀ i, cellRead State.reset.up i = 0#16 ∧ cellRead State.reset.lo i = 0#16) ∧
  (∀ o, cellRead State.reset.ram o = 0#8) ∧ step State.reset = .next State.reset

/-- The state after reset is legal. The reset values are the model's (log 1 to 4, 6, 8, 9). -/
def Obligations.ResetStateIsLegal : Prop :=
  LegalState State.reset

/-- R10, R17, R145. Every step from a legal state gives a legal state: the store keeps its 4096 entries, RAM its size,
all three their canonical form, and a category handed back is the one its code collapses to. -/
def Obligations.EveryStepKeepsTheStateLegal : Prop :=
  ∀ s t : State, LegalState s → step s = .next t → LegalState t
end

