-- ==== Sys2Proof/Laws/Cells.lean ====
section
/-! SUPPORT. Storage: a read after a write, and that every write keeps the canonical form and the bound on addresses. -/

namespace Sys2Proof.Machine

variable {w : Nat}

@[simp] theorem cellRead_nil (k : Nat) : cellRead ([] : List (Nat × BitVec w)) k = unlistedCell w := rfl

theorem cellRead_cons (a : Nat) (x : BitVec w) (m : List (Nat × BitVec w)) (k : Nat) :
    cellRead ((a, x) :: m) k = if a = k then x else cellRead m k := rfl

theorem cellRead_erase_same (m : List (Nat × BitVec w)) (k : Nat) : cellRead (cellErase m k) k = unlistedCell w := by
  induction m with
  | nil => rfl
  | cons c m ih =>
    obtain ⟨a, x⟩ := c
    by_cases h : a = k <;> simp [cellErase, cellRead_cons, h, ih]

theorem cellRead_erase_other (m : List (Nat × BitVec w)) {k j : Nat} (hne : j ≠ k) :
    cellRead (cellErase m k) j = cellRead m j := by
  induction m with
  | nil => rfl
  | cons c m ih =>
    obtain ⟨a, x⟩ := c
    by_cases h : a = k
    · subst h
      simp [cellErase, cellRead_cons, ih, Ne.symm hne]
    · simp [cellErase, cellRead_cons, h, ih]

theorem cellRead_insert_other (m : List (Nat × BitVec w)) {k j : Nat} (v : BitVec w) (hne : j ≠ k) :
    cellRead (cellInsert m k v) j = cellRead m j := by
  induction m with
  | nil => simp [cellInsert, cellRead_cons, Ne.symm hne]
  | cons c m ih =>
    obtain ⟨a, x⟩ := c
    by_cases h : k < a <;> simp [cellInsert, cellRead_cons, h, ih, Ne.symm hne]

theorem cellRead_insert_erased (m : List (Nat × BitVec w)) (k : Nat) (v : BitVec w) :
    cellRead (cellInsert (cellErase m k) k v) k = v := by
  induction m with
  | nil => simp [cellErase, cellInsert, cellRead_cons]
  | cons c m ih =>
    obtain ⟨a, x⟩ := c
    by_cases h : a = k
    · simp [cellErase, h, ih]
    · by_cases hk : k < a <;> simp [cellErase, cellInsert, cellRead_cons, h, hk, ih]

/-- A read after a write to the same address gives the value written, whatever the list. -/
@[simp] theorem cellRead_cellWrite_same (m : List (Nat × BitVec w)) (k : Nat) (v : BitVec w) :
    cellRead (cellWrite m k v) k = v := by
  unfold cellWrite
  split
  · next h => rw [cellRead_erase_same, h]
  · exact cellRead_insert_erased m k v

/-- A write leaves every other address alone, whatever the list. -/
theorem cellRead_cellWrite_other (m : List (Nat × BitVec w)) {k j : Nat} (v : BitVec w) (hne : j ≠ k) :
    cellRead (cellWrite m k v) j = cellRead m j := by
  unfold cellWrite
  split
  · exact cellRead_erase_other m hne
  · rw [cellRead_insert_other _ v hne, cellRead_erase_other m hne]

theorem cellRead_cellWrite (m : List (Nat × BitVec w)) (k j : Nat) (v : BitVec w) :
    cellRead (cellWrite m k v) j = if j = k then v else cellRead m j := by
  split
  · next h => rw [h, cellRead_cellWrite_same]
  · next h => exact cellRead_cellWrite_other m v h

theorem cellsFrom_erase (b k : Nat) (m : List (Nat × BitVec w)) (h : cellsFrom b m = true) :
    cellsFrom b (cellErase m k) = true := by
  induction m with
  | nil => rfl
  | cons c m ih =>
    obtain ⟨a, x⟩ := c
    simp only [cellsFrom, Bool.and_eq_true, decide_eq_true_eq] at h
    by_cases hk : a = k <;> simp [cellErase, cellsFrom, hk, ih h.2]
    omega

theorem cellsFrom_insert (b k : Nat) (v : BitVec w) (m : List (Nat × BitVec w)) (h : cellsFrom b m = true)
    (hb : b ≤ k) : cellsFrom b (cellInsert m k v) = true := by
  induction m with
  | nil => simpa [cellInsert, cellsFrom] using hb
  | cons c m ih =>
    obtain ⟨a, x⟩ := c
    simp only [cellsFrom, Bool.and_eq_true, decide_eq_true_eq] at h
    by_cases hk : k < a <;> simp [cellInsert, cellsFrom, hk, h.1, h.2, hb, ih h.2]

theorem cellsFrom_mono {b c : Nat} (hbc : b ≤ c) (m : List (Nat × BitVec w)) (h : cellsFrom c m = true) :
    cellsFrom b m = true := by
  induction m with
  | nil => rfl
  | cons d m ih =>
    obtain ⟨a, x⟩ := d
    simp only [cellsFrom, Bool.and_eq_true, decide_eq_true_eq] at h ⊢
    exact ⟨by omega, ih h.2⟩

theorem cellsCanonical_erase (k : Nat) (m : List (Nat × BitVec w)) (h : cellsCanonical m = true) :
    cellsCanonical (cellErase m k) = true := by
  induction m with
  | nil => rfl
  | cons c m ih =>
    obtain ⟨a, x⟩ := c
    simp only [cellsCanonical, Bool.and_eq_true, decide_eq_true_eq] at h
    by_cases hk : a = k
    · simpa [cellErase, hk] using ih h.2.2
    · simp [cellErase, cellsCanonical, hk, h.1, ih h.2.2, cellsFrom_erase _ _ _ h.2.1]

theorem cellsCanonical_insert (k : Nat) (v : BitVec w) (hv : v ≠ unlistedCell w) (m : List (Nat × BitVec w))
    (h : cellsCanonical m = true) : cellsCanonical (cellInsert (cellErase m k) k v) = true := by
  induction m with
  | nil => simp [cellErase, cellInsert, cellsCanonical, cellsFrom, hv]
  | cons c m ih =>
    obtain ⟨a, x⟩ := c
    simp only [cellsCanonical, Bool.and_eq_true, decide_eq_true_eq] at h
    by_cases hk : a = k
    · simpa [cellErase, hk] using ih h.2.2
    · have hfrom := cellsFrom_erase (a + 1) k m h.2.1
      by_cases hlt : k < a
      · simp [cellErase, cellInsert, cellsCanonical, cellsFrom, hk, hlt, hv, h.1, hfrom,
          cellsCanonical_erase k m h.2.2, cellsFrom_mono (by omega : k + 1 ≤ a + 1) _ hfrom]
      · simp [cellErase, cellInsert, cellsCanonical, hk, hlt, h.1, ih h.2.2,
          cellsFrom_insert (a + 1) k v _ hfrom (by omega)]

/-- Every write keeps the canonical form. -/
theorem cellsCanonical_cellWrite (m : List (Nat × BitVec w)) (k : Nat) (v : BitVec w) (h : cellsCanonical m = true) :
    cellsCanonical (cellWrite m k v) = true := by
  unfold cellWrite
  split
  · exact cellsCanonical_erase k m h
  · next hv => exact cellsCanonical_insert k v hv m h

theorem cellsBelow_erase (b k : Nat) (m : List (Nat × BitVec w)) (h : cellsBelow b m = true) :
    cellsBelow b (cellErase m k) = true := by
  induction m with
  | nil => rfl
  | cons c m ih =>
    obtain ⟨a, x⟩ := c
    simp only [cellsBelow, Bool.and_eq_true, decide_eq_true_eq] at h
    by_cases hk : a = k <;> simp [cellErase, cellsBelow, hk, ih h.2]
    omega

theorem cellsBelow_insert (b k : Nat) (v : BitVec w) (m : List (Nat × BitVec w)) (h : cellsBelow b m = true)
    (hb : k < b) : cellsBelow b (cellInsert m k v) = true := by
  induction m with
  | nil => simpa [cellInsert, cellsBelow] using hb
  | cons c m ih =>
    obtain ⟨a, x⟩ := c
    simp only [cellsBelow, Bool.and_eq_true, decide_eq_true_eq] at h
    by_cases hk : k < a <;> simp [cellInsert, cellsBelow, hk, h.1, h.2, hb, ih h.2]

/-- A write below the bound keeps every address below it. -/
theorem cellsBelow_cellWrite (b : Nat) (m : List (Nat × BitVec w)) (k : Nat) (v : BitVec w)
    (h : cellsBelow b m = true) (hk : k < b) : cellsBelow b (cellWrite m k v) = true := by
  unfold cellWrite
  split
  · exact cellsBelow_erase b k m h
  · exact cellsBelow_insert b k v _ (cellsBelow_erase b k m h) hk

end Sys2Proof.Machine
end

