-- ==== Sys2Proof/Laws/Flags.lean ====
section
/-! SUPPORT. The flag masks, the evaluator bit by bit, and what the free code of R142 is known to satisfy. -/

namespace Sys2Proof.Machine

theorem physicalPage_toNat (lo : Half) : (physicalPage lo).toNat = lo.toNat % 8192 := by
  simp [physicalPage, layout]

theorem ownerId_eq (up : Half) : ownerId up = up.extractLsb' 8 8 := rfl

theorem accessFlags_read : accessFlags false = 0x0002#16 := by decide

theorem accessFlags_write : accessFlags true = 0x0003#16 := by decide

theorem protMask_eq : protMask = 0xE0000000#32 := by decide

theorem ceilingFaultCode_toNat (writes : Nat) (va : Word) (acc : BitVec 3) :
    (ceilingFaultCode writes va acc).toNat = 256 * ((Config.ceilingFaultDraw writes va acc).val + 1) := by
  have h := (Config.ceilingFaultDraw writes va acc).isLt
  simp only [ceilingFaultCode, BitVec.toNat_ofNat]
  omega

/-- R142: "unspecified nonzero". -/
theorem ceilingFaultCode_ne_zero (writes : Nat) (va : Word) (acc : BitVec 3) :
    ceilingFaultCode writes va acc ≠ 0#32 := by
  intro h
  have h2 := congrArg BitVec.toNat h
  rw [ceilingFaultCode_toNat] at h2
  simp at h2

/-- R142: "FC[7:0] = 0". -/
theorem ceilingFaultCode_low (writes : Nat) (va : Word) (acc : BitVec 3) :
    (ceilingFaultCode writes va acc).extractLsb' 0 8 = 0#8 := by
  apply BitVec.eq_of_toNat_eq
  rw [BitVec.extractLsb'_toNat, ceilingFaultCode_toNat]
  simp

/-- Every draw collapses to the category R142 states. -/
theorem collapse_ceilingFaultCode (writes : Nat) (va : Word) (acc : BitVec 3) :
    collapse (ceilingFaultCode writes va acc) = .protectionFault := by
  have h1 : (ceilingFaultCode writes va acc).extractLsb' layout.sentinelLsb 8 = 0#8 := ceilingFaultCode_low ..
  simp [collapse, h1, ceilingFaultCode_ne_zero]

/-- The bits of step 1: the disable bit of each requested kind, and nothing else. -/
theorem forbidden_getLsbD (up lo : Half) (acc : BitVec 3) (k : Nat) :
    (forbidden up lo acc).getLsbD k =
      (decide (29 ≤ k) && decide (k < 32) && lo.getLsbD (k - 16) && acc.getLsbD (k - 29)) := by
  by_cases hk : k < 32
  · have hm : protMask.getLsbD k = decide (29 ≤ k) := by
      rw [protMask_eq]
      interval_cases k <;> rfl
    simp only [forbidden, logicalValue, accessMask, layout, BitVec.getLsbD_and, BitVec.getLsbD_append,
      BitVec.getLsbD_shiftLeft, BitVec.getLsbD_setWidth, hm]
    by_cases h29 : 29 ≤ k
    · have h16 : ¬ k < 16 := by omega
      have h29' : ¬ k < 29 := by omega
      have hd : k - 29 < 32 := by omega
      simp [hk, h29, h16, h29', hd]
    · simp [h29]
  · simp [BitVec.getLsbD_of_ge _ k (by omega : 32 ≤ k), hk]

/-- Step 2 in user mode on another process's page: the owner id over the sentinel (R82). -/
theorem ownershipPart_fault {up : Half} {pid : Byte} (h : ownerId up ≠ pid) :
    ownershipPart up false pid = (ownerId up).setWidth 32 <<< 8 ||| 0xFF#32 := by
  simp only [ownershipPart, layout]
  rw [if_pos ⟨trivial, h⟩]
  rfl

/-- Step 2 finds nothing in system mode. -/
theorem ownershipPart_system (up : Half) (pid : Byte) : ownershipPart up true pid = 0#32 := by
  simp [ownershipPart]

/-- Step 2 finds nothing on the process's own page. -/
theorem ownershipPart_owner (up : Half) (isSys : Bool) : ownershipPart up isSys (ownerId up) = 0#32 := by
  simp [ownershipPart]

theorem forbidden_low (up lo : Half) (acc : BitVec 3) : (forbidden up lo acc).extractLsb' 0 8 = 0#8 := by
  ext i hi
  have h29 : ¬ 29 ≤ i := by omega
  simp [forbidden_getLsbD, h29]

/-- With ownership satisfied the category is decided by step 1 alone. -/
theorem collapse_evaluate_owned {up lo : Half} {acc : BitVec 3} {isSys : Bool} {pid : Byte}
    (h : ownershipPart up isSys pid = 0#32) :
    collapse (evaluate up lo acc isSys pid) = if forbidden up lo acc = 0#32 then .ok else .protectionFault := by
  have hl : (forbidden up lo acc).extractLsb' layout.sentinelLsb 8 = 0#8 := forbidden_low up lo acc
  simp only [evaluate, h, BitVec.or_zero, collapse, hl]
  by_cases hf : forbidden up lo acc = 0#32 <;> simp [hf]

/-- An ownership fault takes precedence (R84). -/
theorem collapse_evaluate_foreign {up lo : Half} {acc : BitVec 3} {pid : Byte} (h : ownerId up ≠ pid) :
    collapse (evaluate up lo acc false pid) = .ownershipFault := by
  have hs : (evaluate up lo acc false pid).extractLsb' layout.sentinelLsb 8 ≠ 0#8 := by
    intro h0
    have hb := congrArg (fun v => BitVec.getLsbD v 0) h0
    simp [evaluate, ownershipPart_fault h, layout] at hb
  simp [collapse, hs]

end Sys2Proof.Machine
end

