-- ==== Sys2Proof/Laws/Operands.lean ====
section
/-! SUPPORT. The operand forms as arithmetic. -/

namespace Sys2Proof.Machine

theorem halfIndex_eq (ba : Word) : halfIndex ba = ba.toNat / 2 := by
  simp [halfIndex, BitVec.toNat_ushiftRight, Nat.shiftRight_eq_div_pow]

theorem pageIndex_eq (va : Word) : pageIndex va = va.toNat / 4096 := by
  simp [pageIndex, pageShift, BitVec.toNat_ushiftRight, Nat.shiftRight_eq_div_pow]

theorem descIndex_eq (va : Word) (sys : Bool) :
    descIndex va sys = va.toNat / 4096 + (if sys = true then 2048 else 0) := by
  simp [descIndex, pageIndex_eq, sysBase]

theorem pageIndex_lt (va : Word) : pageIndex va < userPages ↔ va.toNat < 0x800000 := by
  rw [pageIndex_eq]
  simp only [userPages]
  omega

theorem descIndex_lt {va : Word} (h : va.toNat < 0x800000) (sys : Bool) : descIndex va sys < 4096 := by
  rw [descIndex_eq]
  split <;> omega

theorem rawOffset_toNat (ppn : BitVec 13) (va : Word) :
    (rawOffset ppn va).toNat = ppn.toNat * 4096 + va.toNat % 4096 := by
  have hp := ppn.isLt
  have h : rawOffset ppn va = (ppn ++ va.extractLsb' 0 12).setWidth 25 := by
    ext i hi
    simp only [rawOffset, pageShift, offsetMask, BitVec.getElem_or, BitVec.getElem_shiftLeft, BitVec.getElem_setWidth,
      BitVec.getLsbD_and, BitVec.getLsbD_append, BitVec.getLsbD_extractLsb']
    by_cases h12 : i < 12
    · have hm : (0xFFF#32).getLsbD i = true := by interval_cases i <;> rfl
      simp [h12, hm]
    · have hm : (0xFFF#32).getLsbD i = false := by
        have h12' : 12 ≤ i := by omega
        interval_cases i <;> rfl
      simp [h12, hm]
  rw [h]
  simp only [BitVec.toNat_setWidth, BitVec.toNat_append, BitVec.extractLsb'_toNat, Nat.shiftRight_zero]
  rw [← Nat.shiftLeft_add_eq_or_of_lt (Nat.mod_lt _ (by decide)), Nat.shiftLeft_eq]
  omega

theorem laneRead_eq (ba : Word) (w : Half) :
    laneRead ba w = if ba.toNat % 2 = 0 then (w >>> 8).setWidth 8 else w.setWidth 8 := by
  have hb : ba.getLsbD 0 = decide (ba.toNat % 2 = 1) := by simp [BitVec.getLsbD, Nat.testBit_zero]
  unfold laneRead
  rw [hb]
  by_cases h : ba.toNat % 2 = 1
  · simp only [h, decide_true, if_true]
    ext i hi
    simp
  · have h0 : ba.toNat % 2 = 0 := by omega
    simp only [h0, Nat.zero_ne_one, decide_false, if_true]
    ext i hi
    simp

theorem laneMerge_eq (ba : Word) (w : Half) (b : Byte) :
    laneMerge ba w b =
      if ba.toNat % 2 = 0 then (b ++ w.setWidth 8 : BitVec 16) else ((w >>> 8).setWidth 8 ++ b : BitVec 16) := by
  have hb : ba.getLsbD 0 = decide (ba.toNat % 2 = 1) := by simp [BitVec.getLsbD, Nat.testBit_zero]
  have hlow : w.extractLsb' 0 8 = w.setWidth 8 := by
    ext i hi
    simp
  have hhigh : w.extractLsb' 8 8 = (w >>> 8).setWidth 8 := by
    ext i hi
    simp
  unfold laneMerge
  rw [hb, hlow, hhigh]
  by_cases h : ba.toNat % 2 = 1
  · simp [h]
  · have h0 : ba.toNat % 2 = 0 := by omega
    simp [h0]

theorem dataByte_eq (data : Word) : dataByte data = data.setWidth 8 := by
  ext i hi
  simp [dataByte]

theorem dataHalf_eq (data : Word) : dataHalf data = data.setWidth 16 := by
  ext i hi
  simp [dataHalf]

theorem dataHighHalf_eq (data : Word) : dataHighHalf data = (data >>> 16).setWidth 16 := by
  ext i hi
  simp [dataHighHalf]

end Sys2Proof.Machine
end

