-- ==== Sys2Proof/Laws/State.lean ====
section
/-! SUPPORT. One lemma per field per named update of the state. -/

namespace Sys2Proof.Machine

variable (s : State)

@[simp] theorem State.putUpper_cfg (i : Nat) (w : Half) : (s.putUpper i w).cfg = s.cfg := rfl
@[simp] theorem State.putUpper_up (i : Nat) (w : Half) : (s.putUpper i w).up = cellWrite s.up i w := rfl
@[simp] theorem State.putUpper_lo (i : Nat) (w : Half) : (s.putUpper i w).lo = s.lo := rfl
@[simp] theorem State.putUpper_ram (i : Nat) (w : Half) : (s.putUpper i w).ram = s.ram := rfl
@[simp] theorem State.putUpper_sys (i : Nat) (w : Half) : (s.putUpper i w).sys = s.sys := rfl
@[simp] theorem State.putUpper_pid (i : Nat) (w : Half) : (s.putUpper i w).pid = s.pid := rfl
@[simp] theorem State.putUpper_requests (i : Nat) (w : Half) : (s.putUpper i w).requests = s.requests := rfl
@[simp] theorem State.putUpper_response (i : Nat) (w : Half) : (s.putUpper i w).response = s.response := rfl
@[simp] theorem State.putUpper_writes (i : Nat) (w : Half) : (s.putUpper i w).writes = s.writes := rfl

@[simp] theorem State.putLower_cfg (i : Nat) (w : Half) : (s.putLower i w).cfg = s.cfg := rfl
@[simp] theorem State.putLower_up (i : Nat) (w : Half) : (s.putLower i w).up = s.up := rfl
@[simp] theorem State.putLower_lo (i : Nat) (w : Half) : (s.putLower i w).lo = cellWrite s.lo i w := rfl
@[simp] theorem State.putLower_ram (i : Nat) (w : Half) : (s.putLower i w).ram = s.ram := rfl
@[simp] theorem State.putLower_sys (i : Nat) (w : Half) : (s.putLower i w).sys = s.sys := rfl
@[simp] theorem State.putLower_pid (i : Nat) (w : Half) : (s.putLower i w).pid = s.pid := rfl
@[simp] theorem State.putLower_requests (i : Nat) (w : Half) : (s.putLower i w).requests = s.requests := rfl
@[simp] theorem State.putLower_response (i : Nat) (w : Half) : (s.putLower i w).response = s.response := rfl
@[simp] theorem State.putLower_writes (i : Nat) (w : Half) : (s.putLower i w).writes = s.writes := rfl

@[simp] theorem State.putByte_cfg (o : Nat) (b : Byte) : (s.putByte o b).cfg = s.cfg := rfl
@[simp] theorem State.putByte_up (o : Nat) (b : Byte) : (s.putByte o b).up = s.up := rfl
@[simp] theorem State.putByte_lo (o : Nat) (b : Byte) : (s.putByte o b).lo = s.lo := rfl
@[simp] theorem State.putByte_ram (o : Nat) (b : Byte) : (s.putByte o b).ram = cellWrite s.ram o b := rfl
@[simp] theorem State.putByte_sys (o : Nat) (b : Byte) : (s.putByte o b).sys = s.sys := rfl
@[simp] theorem State.putByte_pid (o : Nat) (b : Byte) : (s.putByte o b).pid = s.pid := rfl
@[simp] theorem State.putByte_requests (o : Nat) (b : Byte) : (s.putByte o b).requests = s.requests := rfl
@[simp] theorem State.putByte_response (o : Nat) (b : Byte) : (s.putByte o b).response = s.response := rfl
@[simp] theorem State.putByte_writes (o : Nat) (b : Byte) : (s.putByte o b).writes = s.writes := rfl

@[simp] theorem State.putSys_cfg (b : Bool) : (s.putSys b).cfg = s.cfg := rfl
@[simp] theorem State.putSys_up (b : Bool) : (s.putSys b).up = s.up := rfl
@[simp] theorem State.putSys_lo (b : Bool) : (s.putSys b).lo = s.lo := rfl
@[simp] theorem State.putSys_ram (b : Bool) : (s.putSys b).ram = s.ram := rfl
@[simp] theorem State.putSys_sys (b : Bool) : (s.putSys b).sys = b := rfl
@[simp] theorem State.putSys_pid (b : Bool) : (s.putSys b).pid = s.pid := rfl
@[simp] theorem State.putSys_requests (b : Bool) : (s.putSys b).requests = s.requests := rfl
@[simp] theorem State.putSys_response (b : Bool) : (s.putSys b).response = s.response := rfl
@[simp] theorem State.putSys_writes (b : Bool) : (s.putSys b).writes = s.writes := rfl

@[simp] theorem State.putPid_cfg (b : Byte) : (s.putPid b).cfg = s.cfg := rfl
@[simp] theorem State.putPid_up (b : Byte) : (s.putPid b).up = s.up := rfl
@[simp] theorem State.putPid_lo (b : Byte) : (s.putPid b).lo = s.lo := rfl
@[simp] theorem State.putPid_ram (b : Byte) : (s.putPid b).ram = s.ram := rfl
@[simp] theorem State.putPid_sys (b : Byte) : (s.putPid b).sys = s.sys := rfl
@[simp] theorem State.putPid_pid (b : Byte) : (s.putPid b).pid = b := rfl
@[simp] theorem State.putPid_requests (b : Byte) : (s.putPid b).requests = s.requests := rfl
@[simp] theorem State.putPid_response (b : Byte) : (s.putPid b).response = s.response := rfl
@[simp] theorem State.putPid_writes (b : Byte) : (s.putPid b).writes = s.writes := rfl

@[simp] theorem State.respond_cfg (r : Response) : (s.respond r).cfg = s.cfg := rfl
@[simp] theorem State.respond_up (r : Response) : (s.respond r).up = s.up := rfl
@[simp] theorem State.respond_lo (r : Response) : (s.respond r).lo = s.lo := rfl
@[simp] theorem State.respond_ram (r : Response) : (s.respond r).ram = s.ram := rfl
@[simp] theorem State.respond_sys (r : Response) : (s.respond r).sys = s.sys := rfl
@[simp] theorem State.respond_pid (r : Response) : (s.respond r).pid = s.pid := rfl
@[simp] theorem State.respond_requests (r : Response) : (s.respond r).requests = s.requests := rfl
@[simp] theorem State.respond_response (r : Response) : (s.respond r).response = r := rfl
@[simp] theorem State.respond_writes (r : Response) : (s.respond r).writes = s.writes := rfl

@[simp] theorem State.countWrite_cfg : (s.countWrite).cfg = s.cfg := rfl
@[simp] theorem State.countWrite_up : (s.countWrite).up = s.up := rfl
@[simp] theorem State.countWrite_lo : (s.countWrite).lo = s.lo := rfl
@[simp] theorem State.countWrite_ram : (s.countWrite).ram = s.ram := rfl
@[simp] theorem State.countWrite_sys : (s.countWrite).sys = s.sys := rfl
@[simp] theorem State.countWrite_pid : (s.countWrite).pid = s.pid := rfl
@[simp] theorem State.countWrite_requests : (s.countWrite).requests = s.requests := rfl
@[simp] theorem State.countWrite_response : (s.countWrite).response = s.response := rfl
@[simp] theorem State.countWrite_writes : (s.countWrite).writes = s.writes + 1 := rfl

@[simp] theorem markAccess_cfg (i : Nat) (b : Bool) : (markAccess s i b).cfg = s.cfg := rfl
@[simp] theorem markAccess_up (i : Nat) (b : Bool) : (markAccess s i b).up = cellWrite s.up i (cellRead s.up i ||| accessFlags b) := rfl
@[simp] theorem markAccess_lo (i : Nat) (b : Bool) : (markAccess s i b).lo = s.lo := rfl
@[simp] theorem markAccess_ram (i : Nat) (b : Bool) : (markAccess s i b).ram = s.ram := rfl
@[simp] theorem markAccess_sys (i : Nat) (b : Bool) : (markAccess s i b).sys = s.sys := rfl
@[simp] theorem markAccess_pid (i : Nat) (b : Bool) : (markAccess s i b).pid = s.pid := rfl
@[simp] theorem markAccess_requests (i : Nat) (b : Bool) : (markAccess s i b).requests = s.requests := rfl
@[simp] theorem markAccess_response (i : Nat) (b : Bool) : (markAccess s i b).response = s.response := rfl
@[simp] theorem markAccess_writes (i : Nat) (b : Bool) : (markAccess s i b).writes = s.writes := rfl

end Sys2Proof.Machine
end

