-- ==== Sys2Proof/Laws/Ops.lean ====
section
/-! SUPPORT. What the primitives of the store and of RAM answer. -/

namespace Sys2Proof.Machine

theorem dsGet_ok (s : State) {i : Nat} (h : i < 4096) : dsGet s i = .ok (cellRead s.up i, cellRead s.lo i) := by
  simp [dsGet, descCount, Nat.not_le.mpr h]

theorem dsGet_abort (s : State) {i : Nat} (h : 4096 ≤ i) : dsGet s i = .error .assertRange := by
  simp [dsGet, descCount, h, raiseAbort]

theorem halfIsLower_eq (h : Nat) : halfIsLower h = true ↔ h % 2 = 1 := by
  simp [halfIsLower]

theorem halfRead_ok (s : State) {h : Nat} (hh : h < 8192) : halfRead s h = .ok (wordAt s h) := by
  simp only [halfRead, halfDescriptor, dsGet_ok s (by omega : h / 2 < 4096), halfIsLower_eq, wordAt]

theorem halfRead_abort (s : State) {h : Nat} (hh : 8192 ≤ h) : halfRead s h = .error .assertRange := by
  simp only [halfRead, halfDescriptor, dsGet_abort s (by omega : 4096 ≤ h / 2)]

theorem halfWrite_ok (s : State) {h : Nat} (hh : h < 8192) (w : Half) : halfWrite s h w = .ok (withWordAt s h w) := by
  have hi : ¬ 4096 ≤ h / 2 := by omega
  unfold halfWrite withWordAt
  by_cases hl : h % 2 = 1
  · simp [(halfIsLower_eq h).mpr hl, hl, dsSetLower, halfDescriptor, descCount, hi, State.putLower]
  · have hf : halfIsLower h = false := by simp [halfIsLower, hl]
    simp [hf, hl, dsSetUpper, halfDescriptor, descCount, hi, State.putUpper]

theorem halfWrite_abort (s : State) {h : Nat} (hh : 8192 ≤ h) (w : Half) :
    halfWrite s h w = .error .assertRange := by
  have hi : 4096 ≤ h / 2 := by omega
  unfold halfWrite
  split <;> simp [dsSetLower, dsSetUpper, halfDescriptor, descCount, hi, raiseAbort]

theorem wordAt_withWordAt (s : State) (h j : Nat) (w : Half) :
    wordAt (withWordAt s h w) j = if j = h then w else wordAt s j := by
  unfold wordAt withWordAt
  by_cases hl : h % 2 = 1 <;> by_cases hj : j % 2 = 1 <;> simp only [hl, hj, if_true, if_false]
  · rw [cellRead_cellWrite]
    by_cases he : j = h
    · simp [he]
    · rw [if_neg (by omega : ¬ j / 2 = h / 2), if_neg he]
  · rw [if_neg (by omega : ¬ j = h)]
  · rw [if_neg (by omega : ¬ j = h)]
  · rw [cellRead_cellWrite]
    by_cases he : j = h
    · simp [he]
    · rw [if_neg (by omega : ¬ j / 2 = h / 2), if_neg he]

/-- A write on the descriptor bus changes the store's words only. -/
theorem withWordAt_frame (s : State) (h : Nat) (w : Half) :
    (withWordAt s h w).cfg = s.cfg ∧ (withWordAt s h w).ram = s.ram ∧ (withWordAt s h w).sys = s.sys ∧
      (withWordAt s h w).pid = s.pid ∧ (withWordAt s h w).requests = s.requests ∧
      (withWordAt s h w).response = s.response ∧ (withWordAt s h w).writes = s.writes := by
  unfold withWordAt
  split <;> simp

/-- `MemWrite` changes RAM only. -/
theorem memWrite_frame (s : State) (o n : Nat) (v : Word) :
    (memWrite s o n v).cfg = s.cfg ∧ (memWrite s o n v).up = s.up ∧ (memWrite s o n v).lo = s.lo ∧
      (memWrite s o n v).sys = s.sys ∧ (memWrite s o n v).pid = s.pid ∧
      (memWrite s o n v).requests = s.requests ∧ (memWrite s o n v).response = s.response ∧
      (memWrite s o n v).writes = s.writes := by
  induction n generalizing v with
  | zero => simp [memWrite]
  | succ n ih => simpa [memWrite] using ih (v >>> 8)

/-- A byte `MemWrite` does not reach reads as before. -/
theorem memWrite_other (s : State) (o n : Nat) (v : Word) (a : Nat) (h : ∀ k < n, a ≠ ramIndex s.cfg o k) :
    cellRead (memWrite s o n v).ram a = cellRead s.ram a := by
  induction n generalizing v with
  | zero => rfl
  | succ n ih =>
    simp only [memWrite, State.putByte_ram]
    rw [cellRead_cellWrite_other _ _ (h n (by omega)), ih (v >>> 8) (fun k hk => h k (by omega))]

theorem ramSize_pos (c : Params) : 0 < ramSize c := by
  simp [ramSize, pageSize]

theorem four_le_ramSize (c : Params) : 4096 ≤ ramSize c := by
  have h : 1 ≤ 2 ^ c.ramFrameBits := Nat.one_le_two_pow
  simp only [ramSize, pageSize]
  omega

theorem ramIndex_lt (c : Params) (o k : Nat) : ramIndex c o k < ramSize c :=
  Nat.mod_lt _ (ramSize_pos c)

/-- The bytes of one access lie at different offsets: RAM is larger than any access. -/
theorem ramIndex_inj (c : Params) (o : Nat) {j k : Nat} (hj : j < 4) (hk : k < 4)
    (h : ramIndex c o j = ramIndex c o k) : j = k := by
  have h4 := four_le_ramSize c
  have e1 := Nat.div_add_mod (o + j) (ramSize c)
  have e2 := Nat.div_add_mod (o + k) (ramSize c)
  unfold ramIndex at h
  rw [h] at e1
  rcases Nat.lt_trichotomy ((o + j) / ramSize c) ((o + k) / ramSize c) with hlt | heq | hgt
  · have := Nat.mul_le_mul_left (ramSize c) (Nat.succ_le_of_lt hlt)
    rw [Nat.mul_succ] at this
    omega
  · rw [heq] at e1
    omega
  · have := Nat.mul_le_mul_left (ramSize c) (Nat.succ_le_of_lt hgt)
    rw [Nat.mul_succ] at this
    omega

/-- Byte `k` of what `MemWrite` put there: the big-endian byte of the value. -/
theorem memWrite_same (s : State) (o : Nat) {n k : Nat} (hn : n ≤ 4) (hk : k < n) (v : Word) :
    cellRead (memWrite s o n v).ram (ramIndex s.cfg o k) = v.extractLsb' (8 * (n - 1 - k)) 8 := by
  induction n generalizing v with
  | zero => omega
  | succ n ih =>
    simp only [memWrite, State.putByte_ram]
    by_cases he : k = n
    · subst he
      simp
    · have hne : ramIndex s.cfg o k ≠ ramIndex s.cfg o n := fun h =>
        he (ramIndex_inj s.cfg o (by omega) (by omega) h)
      rw [cellRead_cellWrite_other _ _ hne, ih (by omega) (by omega)]
      ext i hi
      simp only [BitVec.getElem_extractLsb', BitVec.getLsbD_ushiftRight]
      congr 1
      omega

/-- `MemRead` depends on RAM and its size alone. -/
theorem memRead_congr {s t : State} (hr : t.ram = s.ram) (hc : t.cfg = s.cfg) (o n : Nat) :
    memRead t o n = memRead s o n := by
  induction n with
  | zero => rfl
  | succ n ih => simp only [memRead, ih, hr, hc]

end Sys2Proof.Machine
end

