-- ==== Sys2Proof/Laws/Meanings.lean ====
section
/-! SUPPORT. What the shared operations under the meanings answer: the translator, the two bus interfaces, the
pre-check. -/

namespace Sys2Proof.Machine

theorem translate_ok (s : State) {va : Word} (h : va.toNat < 0x800000) (isWrite : Bool) :
    translate s va isWrite = .ok (markAccess s (descIndex va s.sys) isWrite, targetOffset s va) := by
  simp [translate, Nat.not_le.mpr ((pageIndex_lt va).mpr h)]

theorem translate_abort (s : State) {va : Word} (h : 0x800000 ≤ va.toNat) (isWrite : Bool) :
    translate s va isWrite = .error .assertRange := by
  have hp : userPages ≤ pageIndex va := Nat.not_lt.mp fun hlt => by
    have := (pageIndex_lt va).mp hlt
    omega
  simp [translate, hp, raiseAbort]

theorem targetOffset_lt (s : State) (va : Word) : targetOffset s va < ramSize s.cfg :=
  Nat.mod_lt _ (ramSize_pos s.cfg)

theorem ramRead_ok (s : State) {va : Word} (h : va.toNat < 0x800000) (n : Nat) :
    ramRead s va n =
      .next ((markAccess s (descIndex va s.sys) false).respond (.data (memRead s (targetOffset s va) n))) := by
  have hm := memRead_congr (s := s) (t := markAccess s (descIndex va s.sys) false) rfl rfl (targetOffset s va) n
  simp only [ramRead, translate_ok s h, complete, hm]

theorem ramRead_abort (s : State) {va : Word} (h : 0x800000 ≤ va.toNat) (n : Nat) :
    ramRead s va n = .fault .assertRange := by
  simp only [ramRead, translate_abort s h]

theorem ramWrite_ok (s : State) {va : Word} (h : va.toNat < 0x800000) (n : Nat) (data : Word) :
    ramWrite s va n data =
      .next ((memWrite (markAccess s (descIndex va s.sys) true) (targetOffset s va) n data).countWrite.respond .done) := by
  simp only [ramWrite, translate_ok s h, completeWrite]

theorem ramWrite_abort (s : State) {va : Word} (h : 0x800000 ≤ va.toNat) (n : Nat) (data : Word) :
    ramWrite s va n data = .fault .assertRange := by
  simp only [ramWrite, translate_abort s h]

theorem readLane_ok (s : State) {ba : Word} (h : ba.toNat ≤ 0x3FFF) :
    readLane s ba = .ok ((laneRead ba (wordAt s (ba.toNat / 2))).setWidth 32) := by
  simp only [readLane, halfIndex_eq, halfRead_ok s (by omega : ba.toNat / 2 < 8192)]

theorem readLane_abort (s : State) {ba : Word} (h : 0x3FFF < ba.toNat) : readLane s ba = .error .assertRange := by
  simp only [readLane, halfIndex_eq, halfRead_abort s (by omega : 8192 ≤ ba.toNat / 2)]

theorem readHalf_ok (s : State) {ba : Word} (h : ba.toNat ≤ 0x3FFF) :
    readHalf s ba = .ok ((wordAt s (ba.toNat / 2)).setWidth 32) := by
  simp only [readHalf, halfIndex_eq, halfRead_ok s (by omega : ba.toNat / 2 < 8192)]

theorem readHalf_abort (s : State) {ba : Word} (h : 0x3FFF < ba.toNat) : readHalf s ba = .error .assertRange := by
  simp only [readHalf, halfIndex_eq, halfRead_abort s (by omega : 8192 ≤ ba.toNat / 2)]

theorem readPair_ok (s : State) {ba : Word} (h : ba.toNat ≤ 0x3FFD) :
    readPair s ba = .ok (wordAt s (ba.toNat / 2) ++ wordAt s (ba.toNat / 2 + 1)) := by
  simp only [readPair, halfIndex_eq, halfRead_ok s (by omega : ba.toNat / 2 < 8192),
    halfRead_ok s (by omega : ba.toNat / 2 + 1 < 8192)]

theorem readPair_abort (s : State) {ba : Word} (h : 0x3FFD < ba.toNat) : readPair s ba = .error .assertRange := by
  simp only [readPair, halfIndex_eq, halfRead_abort s (by omega : 8192 ≤ ba.toNat / 2 + 1)]
  by_cases h2 : ba.toNat / 2 < 8192
  · simp [halfRead_ok s h2]
  · simp [halfRead_abort s (Nat.not_lt.mp h2)]

theorem writeLane_ok (s : State) {ba : Word} (h : ba.toNat ≤ 0x3FFF) (data : Word) :
    writeLane s ba data =
      .ok (withWordAt s (ba.toNat / 2) (laneMerge ba (wordAt s (ba.toNat / 2)) (dataByte data))) := by
  have hh : ba.toNat / 2 < 8192 := by omega
  simp only [writeLane, halfIndex_eq, halfRead_ok s hh, halfWrite_ok s hh]

theorem writeLane_abort (s : State) {ba : Word} (h : 0x3FFF < ba.toNat) (data : Word) :
    writeLane s ba data = .error .assertRange := by
  simp only [writeLane, halfIndex_eq, halfRead_abort s (by omega : 8192 ≤ ba.toNat / 2)]

theorem writeHalf_ok (s : State) {ba : Word} (h : ba.toNat ≤ 0x3FFF) (data : Word) :
    writeHalf s ba data = .ok (withWordAt s (ba.toNat / 2) (dataHalf data)) := by
  simp only [writeHalf, halfIndex_eq, halfWrite_ok s (by omega : ba.toNat / 2 < 8192)]

theorem writeHalf_abort (s : State) {ba : Word} (h : 0x3FFF < ba.toNat) (data : Word) :
    writeHalf s ba data = .error .assertRange := by
  simp only [writeHalf, halfIndex_eq, halfWrite_abort s (by omega : 8192 ≤ ba.toNat / 2)]

theorem writePair_ok (s : State) {ba : Word} (h : ba.toNat ≤ 0x3FFD) (data : Word) :
    writePair s ba data =
      .ok (withWordAt (withWordAt s (ba.toNat / 2) (dataHighHalf data)) (ba.toNat / 2 + 1) (dataHalf data)) := by
  simp only [writePair, halfIndex_eq, halfWrite_ok s (by omega : ba.toNat / 2 < 8192)]
  exact halfWrite_ok _ (by omega) _

theorem writePair_abort (s : State) {ba : Word} (h : 0x3FFD < ba.toNat) (data : Word) :
    writePair s ba data = .error .assertRange := by
  simp only [writePair, halfIndex_eq]
  by_cases h2 : ba.toNat / 2 < 8192
  · simp only [halfWrite_ok s h2]
    exact halfWrite_abort _ (by omega) _
  · simp only [halfWrite_abort s (Nat.not_lt.mp h2)]

/-- A descriptor read that completes changes nothing but what it hands back. -/
theorem finishRead_next {s t : State} {value : Except Fault Word} (h : finishRead s value = .next t) :
    ∃ v, value = .ok v ∧ t = s.respond (.data v) := by
  cases value with
  | error f => simp [finishRead] at h
  | ok v => exact ⟨v, rfl, by simpa [finishRead, complete] using h.symm⟩

/-- A descriptor write that completes was discarded or took effect (R108). -/
theorem finishWrite_next {s t : State} {cpu : CoreId} {written : Except Fault State}
    (h : finishWrite s cpu written = .next t) :
    (cpu = s.cfg.secondaryCoreId ∧ t = s.respond .done) ∨
      (cpu ≠ s.cfg.secondaryCoreId ∧ ∃ u, written = .ok u ∧ t = u.countWrite.respond .done) := by
  unfold finishWrite at h
  split at h
  · next hc => exact .inl ⟨hc, by simpa [complete] using h.symm⟩
  · next hc =>
    cases written with
    | error f => simp at h
    | ok u => exact .inr ⟨hc, u, rfl, by simpa [completeWrite] using h.symm⟩

/-- `CHK` always completes and changes nothing but what it hands back, which is a category with a code that collapses to
it (R144, R145). -/
theorem execChk_next (s : State) (va : Word) (acc : BitVec 3) :
    ∃ category code, collapse code = category ∧ execChk va acc s = .next (s.respond (.check category code)) := by
  unfold execChk
  by_cases h : vaCeiling ≤ va.toNat
  · rw [if_pos h]
    unfold checkAboveCeiling
    by_cases hs : s.sys = true
    · exact ⟨.ok, 0#32, by decide, by simp [hs, complete]⟩
    · exact ⟨.protectionFault, _, collapse_ceilingFaultCode s.writes va acc, by simp [hs, complete]⟩
  · rw [if_neg h]
    have hi : descIndex va s.sys < 4096 := descIndex_lt (Nat.not_le.mp h) s.sys
    rw [dsGet_ok s hi]
    exact ⟨_, _, rfl, rfl⟩

/-- `CHK` above the ceiling (R142). -/
theorem execChk_above (s : State) {va : Word} (h : 0x800000 ≤ va.toNat) (acc : BitVec 3) :
    execChk va acc s = .next (s.respond (checkAboveCeiling s va acc)) := by
  have hc : vaCeiling ≤ va.toNat := h
  simp [execChk, hc, complete]

/-- `CHK` below the ceiling (R143). -/
theorem execChk_below (s : State) {va : Word} (h : va.toNat < 0x800000) (acc : BitVec 3) :
    execChk va acc s = .next (s.respond (checkDescriptor s acc (cellRead s.up (descIndex va s.sys))
      (cellRead s.lo (descIndex va s.sys)))) := by
  have hc : ¬ vaCeiling ≤ va.toNat := Nat.not_le.mpr h
  simp [execChk, hc, dsGet_ok s (descIndex_lt h s.sys), complete]

end Sys2Proof.Machine
end

