-- ==== Sys2Proof/Laws/PerInstr.lean ====
section
/-! SUPPORT. The family RequestForm: each operation's request carries one of the fifteen codes of R62, and the decoder
reads the operation back from it with every operand. -/

namespace Sys2Proof.Laws.RequestForm

/-- The codes of R62 that have a mnemonic. -/
def assigned : List Nat := [0x00, 0x01, 0x02, 0x04, 0x05, 0x06, 0x08, 0x09, 0x0A, 0x0C, 0x0D, 0x0E, 0x10, 0x1C, 0x1D]

/-- What is said of each operation. -/
def Statement (i : Instr) : Prop :=
  (encodeRequest i).op.toNat ∈ assigned ∧ decodeRequest (encodeRequest i) = .ok i

theorem drd8 (ba : Word) : Statement (.drd8 ba) := ⟨by simp [encodeRequest, assigned], rfl⟩
theorem drd16 (ba : Word) : Statement (.drd16 ba) := ⟨by simp [encodeRequest, assigned], rfl⟩
theorem drd32 (ba : Word) : Statement (.drd32 ba) := ⟨by simp [encodeRequest, assigned], rfl⟩
theorem dwr8 (ba data : Word) (cpu : CoreId) : Statement (.dwr8 ba data cpu) := ⟨by simp [encodeRequest, assigned], rfl⟩
theorem dwr16 (ba data : Word) (cpu : CoreId) : Statement (.dwr16 ba data cpu) := ⟨by simp [encodeRequest, assigned], rfl⟩
theorem dwr32 (ba data : Word) (cpu : CoreId) : Statement (.dwr32 ba data cpu) := ⟨by simp [encodeRequest, assigned], rfl⟩
theorem rrd8 (va : Word) : Statement (.rrd8 va) := ⟨by simp [encodeRequest, assigned], rfl⟩
theorem rrd16 (va : Word) : Statement (.rrd16 va) := ⟨by simp [encodeRequest, assigned], rfl⟩
theorem rrd32 (va : Word) : Statement (.rrd32 va) := ⟨by simp [encodeRequest, assigned], rfl⟩
theorem rwr8 (va data : Word) : Statement (.rwr8 va data) := ⟨by simp [encodeRequest, assigned], rfl⟩
theorem rwr16 (va data : Word) : Statement (.rwr16 va data) := ⟨by simp [encodeRequest, assigned], rfl⟩
theorem rwr32 (va data : Word) : Statement (.rwr32 va data) := ⟨by simp [encodeRequest, assigned], rfl⟩
theorem chk (va : Word) (acc : BitVec 3) : Statement (.chk va acc) := ⟨by simp [encodeRequest, assigned], rfl⟩
theorem setsys (data : Word) : Statement (.setsys data) := ⟨by simp [encodeRequest, assigned], rfl⟩
theorem setpid (data : Word) : Statement (.setpid data) := ⟨by simp [encodeRequest, assigned], rfl⟩

end Sys2Proof.Laws.RequestForm
end

