-- ==== Sys2Proof/Laws/Steps.lean ====
section
/-! SUPPORT. What an operation that completes did, said once for each kind of operation, and that storage stays in its
canonical form. -/

namespace Sys2Proof.Machine

/-- RAM at reset is in canonical form. -/
theorem reset_memory_wf : Memory.wf State.reset.ram := rfl

/-- `MemWrite` keeps RAM's canonical form. -/
theorem memWrite_wf (s : State) (o n : Nat) (v : Word) (h : Memory.wf s.ram) : Memory.wf (memWrite s o n v).ram := by
  induction n generalizing v with
  | zero => exact h
  | succ n ih => exact cellsCanonical_cellWrite _ _ _ (ih (v >>> 8))

/-- `MemWrite` stays within RAM. -/
theorem memWrite_below (s : State) (o n : Nat) (v : Word) (h : cellsBelow (ramSize s.cfg) s.ram = true) :
    cellsBelow (ramSize s.cfg) (memWrite s o n v).ram = true := by
  induction n generalizing v with
  | zero => exact h
  | succ n ih => exact cellsBelow_cellWrite _ _ _ _ (ih (v >>> 8)) (ramIndex_lt _ _ _)

/-- A RAM-bus read that completes marked one entry as referenced and handed back a value. -/
theorem ramRead_next {s t : State} {va : Word} {n : Nat} (h : ramRead s va n = .next t) :
    va.toNat < 0x800000 ∧ ∃ v, t = (markAccess s (descIndex va s.sys) false).respond (.data v) := by
  by_cases hv : va.toNat < 0x800000
  · rw [ramRead_ok s hv] at h
    cases h
    exact ⟨hv, _, rfl⟩
  · rw [ramRead_abort s (Nat.not_lt.mp hv)] at h
    cases h

/-- A RAM-bus write that completes marked one entry and wrote `n` bytes. -/
theorem ramWrite_next {s t : State} {va data : Word} {n : Nat} (h : ramWrite s va n data = .next t) :
    va.toNat < 0x800000 ∧
      t = (memWrite (markAccess s (descIndex va s.sys) true) (targetOffset s va) n data).countWrite.respond .done := by
  by_cases hv : va.toNat < 0x800000
  · rw [ramWrite_ok s hv] at h
    cases h
    exact ⟨hv, rfl⟩
  · rw [ramWrite_abort s (Nat.not_lt.mp hv)] at h
    cases h

/-- A byte write of the store that completes was in range. -/
theorem writeLane_next {s u : State} {ba data : Word} (h : writeLane s ba data = .ok u) :
    ba.toNat ≤ 0x3FFF ∧ ∃ w, u = withWordAt s (ba.toNat / 2) w := by
  by_cases hb : ba.toNat ≤ 0x3FFF
  · rw [writeLane_ok s hb] at h
    cases h
    exact ⟨hb, _, rfl⟩
  · rw [writeLane_abort s (Nat.not_le.mp hb)] at h
    cases h

/-- A halfword write of the store that completes was in range. -/
theorem writeHalf_next {s u : State} {ba data : Word} (h : writeHalf s ba data = .ok u) :
    ba.toNat ≤ 0x3FFF ∧ ∃ w, u = withWordAt s (ba.toNat / 2) w := by
  by_cases hb : ba.toNat ≤ 0x3FFF
  · rw [writeHalf_ok s hb] at h
    cases h
    exact ⟨hb, _, rfl⟩
  · rw [writeHalf_abort s (Nat.not_le.mp hb)] at h
    cases h

/-- A 32-bit write of the store that completes was in range. -/
theorem writePair_next {s u : State} {ba data : Word} (h : writePair s ba data = .ok u) :
    ba.toNat ≤ 0x3FFD ∧ ∃ hi lo, u = withWordAt (withWordAt s (ba.toNat / 2) hi) (ba.toNat / 2 + 1) lo := by
  by_cases hb : ba.toNat ≤ 0x3FFD
  · rw [writePair_ok s hb] at h
    cases h
    exact ⟨hb, _, _, rfl⟩
  · rw [writePair_abort s (Nat.not_le.mp hb)] at h
    cases h

/-- What each operation did if it completed. -/
theorem exec_next {i : Instr} {s t : State} (h : exec i s = .next t) :
    match i with
    | .drd8 _ | .drd16 _ | .drd32 _ => ∃ v, t = s.respond (.data v)
    | .dwr8 ba _ _ | .dwr16 ba _ _ =>
      t = s.respond .done ∨
        ba.toNat ≤ 0x3FFF ∧ ∃ w, t = (withWordAt s (ba.toNat / 2) w).countWrite.respond .done
    | .dwr32 ba _ _ =>
      t = s.respond .done ∨
        ba.toNat ≤ 0x3FFD ∧ ∃ hi lo,
          t = (withWordAt (withWordAt s (ba.toNat / 2) hi) (ba.toNat / 2 + 1) lo).countWrite.respond .done
    | .rrd8 va | .rrd16 va | .rrd32 va =>
      va.toNat < 0x800000 ∧ ∃ v, t = (markAccess s (descIndex va s.sys) false).respond (.data v)
    | .rwr8 va _ => va.toNat < 0x800000 ∧ ∃ v,
        t = (memWrite (markAccess s (descIndex va s.sys) true) (targetOffset s va) 1 v).countWrite.respond .done
    | .rwr16 va _ => va.toNat < 0x800000 ∧ ∃ v,
        t = (memWrite (markAccess s (descIndex va s.sys) true) (targetOffset s va) 2 v).countWrite.respond .done
    | .rwr32 va _ => va.toNat < 0x800000 ∧ ∃ v,
        t = (memWrite (markAccess s (descIndex va s.sys) true) (targetOffset s va) 4 v).countWrite.respond .done
    | .chk _ _ => ∃ category code, collapse code = category ∧ t = s.respond (.check category code)
    | .setsys data => t = (s.putSys (dataBit data)).countWrite.respond .done
    | .setpid data => t = (s.putPid (dataByte data)).countWrite.respond .done := by
  cases i with
  | drd8 | drd16 | drd32 =>
    obtain ⟨v, -, ht⟩ := finishRead_next h
    exact ⟨v, ht⟩
  | dwr8 =>
    obtain ⟨-, ht⟩ | ⟨-, u, hw, ht⟩ := finishWrite_next h
    · exact .inl ht
    · obtain ⟨hb, w, rfl⟩ := writeLane_next hw
      exact .inr ⟨hb, w, ht⟩
  | dwr16 =>
    obtain ⟨-, ht⟩ | ⟨-, u, hw, ht⟩ := finishWrite_next h
    · exact .inl ht
    · obtain ⟨hb, w, rfl⟩ := writeHalf_next hw
      exact .inr ⟨hb, w, ht⟩
  | dwr32 =>
    obtain ⟨-, ht⟩ | ⟨-, u, hw, ht⟩ := finishWrite_next h
    · exact .inl ht
    · obtain ⟨hb, hi, lo, rfl⟩ := writePair_next hw
      exact .inr ⟨hb, hi, lo, ht⟩
  | rrd8 | rrd16 | rrd32 => exact ramRead_next h
  | rwr8 | rwr16 | rwr32 =>
    obtain ⟨hv, ht⟩ := ramWrite_next h
    exact ⟨hv, _, ht⟩
  | chk va acc =>
    obtain ⟨category, code, hc, he⟩ := execChk_next s va acc
    have h' : execChk va acc s = .next t := h
    rw [he] at h'
    cases h'
    exact ⟨category, code, hc, rfl⟩
  | setsys | setpid =>
    cases h
    rfl

end Sys2Proof.Machine
end

