-- ==== Sys2Proof/Tests/Slice0.lean ====
section
/-! SUPPORT. Tests. Every expected value is a row of spec/95_test_vectors.md, of a rule's example, or a hand count from the
rule named; a witness theorem shows a state and operands that meet the hypotheses of the obligation it names. -/

namespace Sys2Proof.Tests

open Sys2Proof.Machine

/-- What field `f` holds after an operation, if it completed. -/
def after {α : Type} (o : Host.Outcome State Fault Refusal) (f : State → α) : Option α :=
  match o with
  | .next t => some (f t)
  | .fault _ => none
  | .refused _ => none

/-- Did the operation abort? -/
def aborts (o : Host.Outcome State Fault Refusal) : Bool :=
  match o with
  | .next _ => false
  | .fault .assertRange => true
  | .refused _ => false

/-- The start of 95_test_vectors.md 2.5: user page 1 on frame 5, owner 0x12, four bytes in RAM. -/
def ramState : State :=
  { State.reset with
    up := [(1, 0x1200#16)], lo := [(1, 0x0005#16)]
    ram := [(0x5234, 0x11#8), (0x5235, 0x22#8), (0x5236, 0x33#8), (0x5237, 0x44#8)] }

/-- The start of 95_test_vectors.md 2.4, with one request of a reserved code waiting. -/
def storeState : State :=
  { State.reset with
    up := [(1, 0xAABB#16)], lo := [(1, 0xCCDD#16), (4095, 0x5555#16)]
    requests := [{ op := 0x1F#5, cpu := 0, addr := 0#32, data := 0#32, acc := 0#3 }] }

/-- The start of R146: user page 1 write-disabled with owner 0x12, system page 1 execute-disabled. -/
def checkState (sys : Bool) (pid : Byte) : State :=
  { State.reset with up := [(1, 0x1200#16)], lo := [(1, 0x4005#16), (2049, 0x2005#16)], sys := sys, pid := pid }

/-! Ill-formed addresses (R185). -/

theorem test_illformed_descriptor_reads :
    (Instr.drd8 0x4000#32).wellFormed = false ∧ (Instr.drd16 0x4000#32).wellFormed = false ∧
      (Instr.drd32 0x3FFE#32).wellFormed = false := by decide

theorem test_illformed_descriptor_writes :
    (Instr.dwr8 0x4000#32 0#32 0).wellFormed = false ∧ (Instr.dwr16 0x4000#32 0#32 0).wellFormed = false ∧
      (Instr.dwr32 0x3FFE#32 0#32 0).wellFormed = false := by decide

theorem test_illformed_ram_reads :
    (Instr.rrd8 0x800000#32).wellFormed = false ∧ (Instr.rrd16 0x800000#32).wellFormed = false ∧
      (Instr.rrd32 0xFFFFFFFF#32).wellFormed = false := by decide

theorem test_illformed_ram_writes :
    (Instr.rwr8 0x800000#32 0#32).wellFormed = false ∧ (Instr.rwr16 0x800000#32 0#32).wellFormed = false ∧
      (Instr.rwr32 0x800000#32 0#32).wellFormed = false := by decide

theorem test_wellformed_edges :
    (Instr.drd32 0x3FFD#32).wellFormed = true ∧ (Instr.rrd32 0x7FFFFF#32).wellFormed = true ∧
      (Instr.chk 0xFFFFFFFF#32 0#3).wellFormed = true := by decide

/-! Decoding: each operation's request written out from R62 (from the right: 5 bits of op, 3 of acc, 32 of addr, 32 of
data, then cpu; log 7). -/

theorem test_decode_drd8 : decodeWord 0b00000000000000000000000000000101_000_00000 = .ok (.drd8 0x5#32) := by rfl
theorem test_decode_drd16 : decodeWord 0b00000000000000000000000000001000_000_00001 = .ok (.drd16 0x8#32) := by rfl
theorem test_decode_drd32 : decodeWord 0b00000000000000000000000000000100_000_00010 = .ok (.drd32 0x4#32) := by rfl
theorem test_decode_dwr8 :
    decodeWord 0b11_00000000000000000000000010111000_00000000000000000000000000000101_000_00100 =
      .ok (.dwr8 0x5#32 0xB8#32 3) := by rfl
theorem test_decode_dwr16 :
    decodeWord 0b1_00000000000000000011010000000000_00000000000000000000000000001000_000_00101 =
      .ok (.dwr16 0x8#32 0x3400#32 1) := by rfl
theorem test_decode_dwr32 :
    decodeWord 0b00010010000000000000000000000101_00000000000000000000000000000100_000_00110 =
      .ok (.dwr32 0x4#32 0x12000005#32 0) := by rfl
theorem test_decode_rrd8 : decodeWord 0b00000000000000000001001000110101_000_01000 = .ok (.rrd8 0x1235#32) := by rfl
theorem test_decode_rrd16 : decodeWord 0b00000000000000000001001000110110_000_01001 = .ok (.rrd16 0x1236#32) := by rfl
theorem test_decode_rrd32 : decodeWord 0b00000000000000000001001000110100_000_01010 = .ok (.rrd32 0x1234#32) := by rfl
theorem test_decode_rwr8 :
    decodeWord 0b00000000000000000000000001011010_00000000000000000010000000010000_000_01100 =
      .ok (.rwr8 0x2010#32 0x5A#32) := by rfl
theorem test_decode_rwr16 :
    decodeWord 0b00000000000000000001001000110100_00000000000000000000111111111110_000_01101 =
      .ok (.rwr16 0xFFE#32 0x1234#32) := by rfl
theorem test_decode_rwr32 :
    decodeWord 0b11011110101011011011111011101111_00000000000000000001001000110100_000_01110 =
      .ok (.rwr32 0x1234#32 0xDEADBEEF#32) := by rfl
theorem test_decode_chk :
    decodeWord 0b00000000000000000001001000110100_010_10000 = .ok (.chk 0x1234#32 0b010#3) := by rfl
theorem test_decode_setsys :
    decodeWord 0b00000000000000000000000000000001_00000000000000000000000000000000_000_11100 =
      .ok (.setsys 1#32) := by rfl
theorem test_decode_setpid :
    decodeWord 0b00000000000000000000000000010010_00000000000000000000000000000000_000_11101 =
      .ok (.setpid 0x12#32) := by rfl
/-- R63: the codes between the assigned ones. -/
theorem test_decode_reserved :
    decodeWord 0x03 = .error (.reservedOp 0x03#5) ∧ decodeWord 0x11 = .error (.reservedOp 0x11#5) ∧
      decodeWord 0x1B = .error (.reservedOp 0x1B#5) ∧ decodeWord 0x1E = .error (.reservedOp 0x1E#5) := ⟨rfl, rfl, rfl, rfl⟩

/-! Descriptor bus, 95_test_vectors.md 2.4. -/

theorem test_drd8_lanes :
    after (exec (.drd8 0x4#32) storeState) State.response = some (.data 0xAA#32) ∧
      after (exec (.drd8 0x7#32) storeState) State.response = some (.data 0xDD#32) := by decide
theorem test_drd8_last : after (exec (.drd8 0x3FFF#32) storeState) State.response = some (.data 0x55#32) := by decide
theorem test_drd16_low_bit_ignored :
    after (exec (.drd16 0x5#32) storeState) State.response = some (.data 0xAABB#32) := by decide
theorem test_drd16_aborts : aborts (exec (.drd16 0x4000#32) storeState) = true := by decide
theorem test_drd32_straddles :
    after (exec (.drd32 0x6#32) storeState) State.response = some (.data 0xCCDD0000#32) := by decide
theorem test_drd32_aborts_on_second_half : aborts (exec (.drd32 0x3FFE#32) storeState) = true := by decide
theorem test_dwr8_upper_low_byte :
    after (exec (.dwr8 0x5#32 0x00#32 0) storeState) State.up = some [(1, 0xAA00#16)] := by decide
theorem test_dwr8_lower_low_byte :
    after (exec (.dwr8 0x7#32 0x05#32 0) storeState) State.lo = some [(1, 0xCC05#16), (4095, 0x5555#16)] := by decide
theorem test_dwr16_high_data_ignored :
    after (exec (.dwr16 0x6#32 0x12340005#32 0) storeState) State.lo = some [(1, 0x0005#16), (4095, 0x5555#16)] := by decide
/-- 2.4: `DWR16 0x4000, 0x0000`: no abort from the secondary master, the abort from another. -/
theorem test_dwr16_initiator_before_range :
    after (exec (.dwr16 0x4000#32 0#32 1) storeState) State.up = some [(1, 0xAABB#16)] ∧
      aborts (exec (.dwr16 0x4000#32 0#32 0) storeState) = true := by decide
theorem test_dwr32_straddles :
    after (exec (.dwr32 0x6#32 0x11112222#32 0) storeState) State.up = some [(1, 0xAABB#16), (2, 0x2222#16)] ∧
      after (exec (.dwr32 0x6#32 0x11112222#32 0) storeState) State.lo = some [(1, 0x1111#16), (4095, 0x5555#16)] := by
  decide
theorem test_dwr32_secondary_discarded :
    after (exec (.dwr32 0x4#32 0#32 1) storeState) State.up = some [(1, 0xAABB#16)] := by decide

/-! RAM bus, 95_test_vectors.md 2.5 and 2.3. -/

theorem test_rrd8_marks_referenced :
    after (exec (.rrd8 0x1234#32) ramState) State.response = some (.data 0x11#32) ∧
      after (exec (.rrd8 0x1234#32) ramState) State.up = some [(1, 0x1202#16)] := by decide
theorem test_rrd16_misaligned :
    after (exec (.rrd16 0x1235#32) ramState) State.response = some (.data 0x2233#32) := by decide
theorem test_rrd32_big_endian :
    after (exec (.rrd32 0x1234#32) ramState) State.response = some (.data 0x11223344#32) := by decide
theorem test_rrd32_aborts : aborts (exec (.rrd32 0x800000#32) ramState) = true := by decide
theorem test_rwr8_unchecked :
    after (exec (.rwr8 0x1234#32 0x1FF#32) { ramState with lo := [(1, 0xE005#16)], pid := 0x55#8 })
      (fun t => cellRead t.ram 0x5234) = some 0xFF#8 := by decide
theorem test_rwr8_marks_both :
    after (exec (.rwr8 0x1234#32 0x7F#32) ramState) State.up = some [(1, 0x1203#16)] := by decide
theorem test_rwr16_bytes :
    after (exec (.rwr16 0x1236#32 0xBEEF#32) ramState) State.ram =
      some [(0x5234, 0x11#8), (0x5235, 0x22#8), (0x5236, 0xBE#8), (0x5237, 0xEF#8)] := by decide
/-- 2.5: `RWR32 0x003FFE` on frame 0x07FF runs past the end of RAM and wraps. -/
theorem test_rwr32_wraps_at_ram_end :
    after (exec (.rwr32 0x3FFE#32 0xA1B2C3D4#32) { State.reset with lo := [(3, 0x07FF#16)] }) State.ram =
      some [(0x000000, 0xC3#8), (0x000001, 0xD4#8), (0x7FFFFE, 0xA1#8), (0x7FFFFF, 0xB2#8)] := by decide
/-- 2.5: `RWR32 0x001FFE` crosses the page and still marks one descriptor. -/
theorem test_rwr32_one_translation :
    after (exec (.rwr32 0x1FFE#32 0xA1B2C3D4#32) ramState) State.up = some [(1, 0x1203#16)] ∧
      after (exec (.rwr32 0x1FFE#32 0xA1B2C3D4#32) ramState) (fun t => cellRead t.ram 0x6001) = some 0xD4#8 := by decide
/-- 2.3, rows with other RAM sizes, and R96's 0x1FFF frame. -/
theorem test_offset_other_ram_sizes :
    physicalOffset { ramFrameBits := 2, secondaryCoreId := 0 } 0x0005#16 0x1234#32 = 0x001234 ∧
      physicalOffset { ramFrameBits := 0, secondaryCoreId := 0 } 0x0005#16 0x1234#32 = 0x000234 ∧
      physicalOffset { ramFrameBits := 13, secondaryCoreId := 0 } 0x1FFF#16 0x1234#32 = 0x1FFF234 ∧
      physicalOffset { ramFrameBits := 11, secondaryCoreId := 0 } 0x1FFF#16 0x0FFF#32 = 0x7FFFFF := by decide

/-! CHK, R146 and 95_test_vectors.md 2.6. -/

theorem test_chk_user_rows :
    after (exec (.chk 0x1234#32 0b010#3) (checkState false 0x12#8)) State.response =
        some (.check .protectionFault 0x40000000#32) ∧
      after (exec (.chk 0x1234#32 0b010#3) (checkState false 0x34#8)) State.response =
        some (.check .ownershipFault 0x400012FF#32) := by decide
theorem test_chk_system_rows :
    after (exec (.chk 0x1234#32 0b111#3) (checkState true 0x34#8)) State.response =
        some (.check .protectionFault 0x20000000#32) ∧
      after (exec (.chk 0x800000#32 0b111#3) (checkState true 0x34#8)) State.response = some (.check .ok 0#32) := by decide
/-- 2.2: owner 0 against process 1 shows the sentinel alone. -/
theorem test_evaluate_owner_zero :
    evaluate 0x0000#16 0x0005#16 0b100#3 false 0x01#8 = 0x000000FF#32 ∧ collapse 0x000000FF#32 = .ownershipFault := by
  decide
/-- 40_descriptor_store.md R74's example. -/
theorem test_decode_descriptor :
    decodeDescriptor 0xAABB#16 0xCCDD#16 =
      { physicalPage := 0x0CDD#13, readDisabled := true, writeDisabled := true, execDisabled := false,
        ownerId := 0xAA#8, spare := 0b101110#6, referenced := true, altered := true } := by decide

/-! Context, 95_test_vectors.md 2.7. -/

theorem test_setsys_bit_zero_only :
    after (exec (.setsys 0xFFFFFFFE#32) (checkState true 0#8)) State.sys = some false ∧
      after (exec (.setsys 1#32) State.reset) State.sys = some true := by decide
theorem test_setpid_low_byte : after (exec (.setpid 0x1FF#32) State.reset) State.pid = some 0xFF#8 := by decide

/-! The fetch of the host's opcode words. -/

theorem test_fetch_word_runs_next :
    after (step (State.reset.withFetchWord 8 0x09)) State.response = some (.data 0#32) ∧
      decodeTableWord 8 0x09 = some (.rrd16 0#32) := by decide

/-! Witnesses. -/

theorem witness_ReservedCodesAreRefused :
    (0x1F#5).toNat ∈ [0x03, 0x07, 0x0B, 0x0F, 0x11, 0x12, 0x13, 0x14, 0x15, 0x16, 0x17, 0x18, 0x19, 0x1A, 0x1B, 0x1E, 0x1F] ∧
      storeState.requests = { op := 0x1F#5, cpu := 0, addr := 0#32, data := 0#32, acc := 0#3 } :: [] ∧
      (0x1D#5).toNat ∉ [0x03, 0x07, 0x0B, 0x0F, 0x11, 0x12, 0x13, 0x14, 0x15, 0x16, 0x17, 0x18, 0x19, 0x1A, 0x1B, 0x1E, 0x1F] := by
  decide
theorem witness_UnnamedFieldsAreIgnored :
    decodeRequest { op := 0x02#5, cpu := 7, addr := 4#32, data := 9#32, acc := 5#3 } = .ok (.drd32 4#32) ∧
      (0x02#5).toNat ∉ [0x04, 0x05, 0x06] ∧ (0x02#5).toNat ≠ 0x10 ∧
      (0x02#5).toNat ∈ [0x00, 0x01, 0x02, 0x08, 0x09, 0x0A, 0x10] ∧
      decodeRequest { op := 0x1D#5, cpu := 7, addr := 4#32, data := 9#32, acc := 5#3 } = .ok (.setpid 9#32) ∧
      (0x1D#5).toNat ∈ [0x1C, 0x1D] := ⟨rfl, by decide, by decide, by decide, rfl, by decide⟩
theorem witness_StepPerformsTheDecodedRequest :
    (State.reset.withFetchWord 8 0x10).requests = Request.ofNat 0x10 :: [] ∧
      decodeRequest (Request.ofNat 0x10) = .ok (.chk 0#32 0#3) := ⟨rfl, rfl⟩
theorem witness_StepWithoutRequestHoldsTheState : State.reset.requests = [] := rfl
theorem witness_RoutedRequestsComplete :
    (State.reset.withFetchWord 40 0x3FFD02).requests = Request.ofNat 0x3FFD02 :: [] ∧
      decodeRequest (Request.ofNat 0x3FFD02) = .ok (.drd32 0x3FFD#32) ∧
      (Instr.drd32 0x3FFD#32).wellFormed = true := ⟨rfl, rfl, by decide⟩
theorem witness_LogicalValueAndBusImage : 4095 < 4096 := by decide
theorem witness_StorePrimitives : 4095 ≤ 4095 ∧ 4095 < 4096 := by decide
theorem witness_Drd16ReturnsTheHalfword :
    (0x3FFF#32).toNat ≤ 0x3FFF ∧ 0x3FFF < (0x4000#32).toNat := by decide
theorem witness_Drd8ReturnsTheLane :
    (0x3FFF#32).toNat ≤ 0x3FFF ∧ 0x3FFF < (0x4000#32).toNat := by decide
theorem witness_Drd32ReturnsTwoHalfwords :
    (0x3FFD#32).toNat ≤ 0x3FFD ∧ 0x3FFD < (0x3FFE#32).toNat := by decide
theorem witness_Dwr16WritesTheHalfword :
    (1 : CoreId) = storeState.cfg.secondaryCoreId ∧ (0 : CoreId) ≠ storeState.cfg.secondaryCoreId ∧
      (0x3FFD#32).toNat ≤ 0x3FFF ∧ (0x3FFD#32).toNat / 2 % 2 = 0 ∧ (0x3FFF#32).toNat ≤ 0x3FFF ∧
      (0x3FFF#32).toNat / 2 % 2 = 1 ∧ 0x3FFF < (0x4000#32).toNat := by decide
theorem witness_Dwr8MergesTheLane :
    (1 : CoreId) = storeState.cfg.secondaryCoreId ∧ (0 : CoreId) ≠ storeState.cfg.secondaryCoreId ∧
      (0x3FFF#32).toNat ≤ 0x3FFF ∧ 0x3FFF < (0x4000#32).toNat := by decide
theorem witness_Dwr32WritesTwoHalfwords :
    (1 : CoreId) = storeState.cfg.secondaryCoreId ∧ (0 : CoreId) ≠ storeState.cfg.secondaryCoreId ∧
      (0x3FFD#32).toNat ≤ 0x3FFD ∧ 0x3FFD < (0x3FFE#32).toNat := by decide
theorem witness_Dwr32EqualsTwoDwr16 :
    (0 : CoreId) ≠ storeState.cfg.secondaryCoreId ∧ (0x3FFD#32).toNat ≤ 0x3FFD := by decide
theorem witness_DescriptorWritesReadBack :
    (0 : CoreId) ≠ storeState.cfg.secondaryCoreId ∧ (0x3FFF#32).toNat ≤ 0x3FFF := by decide
theorem witness_ByteWriteClearsFlagsKeepsOwner : (0 : CoreId) ≠ storeState.cfg.secondaryCoreId ∧ 4095 < 4096 := by decide
theorem witness_TranslateFollowsItsFourSteps :
    (0x7FFFFF#32).toNat / 4096 < 2048 ∧ 2048 ≤ (0x800000#32).toNat / 4096 := by decide
theorem witness_FramesWrapModulo2048 :
    State.reset.cfg.ramFrameBits = 11 ∧ (0x0805#16).toNat % 2048 = (0x0005#16).toNat % 2048 := by decide
theorem witness_Rrd8ReadsOneByte :
    (0x7FFFFF#32).toNat < 0x800000 ∧ 0x800000 ≤ (0x800000#32).toNat := by decide
theorem witness_Rrd16ReadsTwoBytes :
    (0x7FFFFF#32).toNat < 0x800000 ∧ 0x800000 ≤ (0x800000#32).toNat := by decide
theorem witness_Rrd32ReadsFourBytes :
    (0x7FFFFF#32).toNat < 0x800000 ∧ 0x800000 ≤ (0x800000#32).toNat := by decide
theorem witness_Rwr8WritesOneByte :
    (0x7FFFFF#32).toNat < 0x800000 ∧ 0x800000 ≤ (0x800000#32).toNat := by decide
theorem witness_Rwr16WritesTwoBytes :
    (0x7FFFFF#32).toNat < 0x800000 ∧ 0x800000 ≤ (0x800000#32).toNat := by decide
theorem witness_Rwr32WritesFourBytes :
    (0x7FFFFF#32).toNat < 0x800000 ∧ 0x800000 ≤ (0x800000#32).toNat := by decide
theorem witness_RamWriteThenReadReturnsTheValue : (0x7FFFFF#32).toNat < 0x800000 := by decide
theorem witness_RamBusIgnoresPermissionsAndOwner :
    (0x1234#32).toNat < 0x800000 ∧ { ramState with lo := [(1, 0xE005#16)], pid := 0x55#8 }.cfg = ramState.cfg ∧
      { ramState with lo := [(1, 0xE005#16)], pid := 0x55#8 }.ram = ramState.ram ∧
      { ramState with lo := [(1, 0xE005#16)], pid := 0x55#8 }.sys = ramState.sys ∧
      physicalPage (cellRead [(1, 0xE005#16)] (descIndex 0x1234#32 ramState.sys)) =
        physicalPage (cellRead ramState.lo (descIndex 0x1234#32 ramState.sys)) := by decide
theorem witness_ForeignPagesGiveOwnershipFault : (0x0000#16).toNat / 256 ≠ (0x01#8).toNat := by decide
theorem witness_OwnedPagesFollowDisableBits : (0x1200#16).toNat / 256 = (0x12#8).toNat := by decide
theorem witness_EvaluateIgnoresFrameAndFlags :
    (0x12FF#16).toNat / 256 = (0x1200#16).toNat / 256 ∧ (0x5FFF#16).toNat / 8192 = (0x4005#16).toNat / 8192 := by decide
theorem witness_ChkAnswersCategoryAndCode :
    (0x7FFFFF#32).toNat < 0x800000 ∧ 0x800000 ≤ (0x800000#32).toNat ∧ (checkState true 0#8).sys = true ∧
      (checkState false 0#8).sys = false := by decide
theorem witness_CategoryPriority : exec (.dwr32 0x3FFE#32 0#32 0) storeState = .fault .assertRange := rfl
theorem witness_ChkHasNoSideEffectAndRepeats :
    exec (.rrd8 0x1234#32) ramState =
      .next { ramState with up := [(1, 0x1202#16)], response := .data 0x11#32 } ∧
    (0x7FFFFF#32).toNat < 0x800000 := ⟨rfl, by decide⟩
theorem witness_OnlySettersChangeTheContext :
    (∃ t, exec (.setsys 1#32) State.reset = .next t ∧ t.sys ≠ State.reset.sys) ∧
      (∃ t, exec (.setpid 1#32) State.reset = .next t ∧ t.pid ≠ State.reset.pid) :=
  ⟨⟨_, rfl, by decide⟩, ⟨_, rfl, by decide⟩⟩
theorem witness_StoreChangesOnlyByItsWriters :
    (∃ t, exec (.rrd32 0x7FFFFF#32) ramState = .next t) ∧ (∃ t, exec (.rwr32 0x7FFFFF#32 1#32) ramState = .next t) ∧
      (∃ t, exec (.chk 0#32 0#3) ramState = .next t) := ⟨⟨_, rfl⟩, ⟨_, rfl⟩, ⟨_, rfl⟩⟩
theorem witness_RamChangesOnlyByRamWrites :
    ∃ t, exec (.rwr8 0x1234#32 0x7F#32) ramState = .next t ∧ t.ram ≠ ramState.ram := ⟨_, rfl, by decide⟩
theorem witness_OnlyChkHandsBackACategory :
    ∃ t, exec (.chk 0x1234#32 0b100#3) (checkState false 0x12#8) = .next t ∧ t.response = .check .ok 0#32 :=
  ⟨_, rfl, by decide⟩
theorem witness_ReadsAndChecksFrame :
    (∃ t, exec (.drd8 0x4#32) storeState = .next t) ∧ (∃ t, exec (.drd16 0x4#32) storeState = .next t) ∧
      (∃ t, exec (.drd32 0x4#32) storeState = .next t) ∧ (∃ t, exec (.chk 0x4#32 0#3) storeState = .next t) :=
  ⟨⟨_, rfl⟩, ⟨_, rfl⟩, ⟨_, rfl⟩, ⟨_, rfl⟩⟩
theorem witness_DescriptorWritesFrame :
    (∃ t, exec (.dwr8 0x4#32 0#32 0) storeState = .next t) ∧ (∃ t, exec (.dwr16 0x4#32 0#32 0) storeState = .next t) ∧
      (∃ t, exec (.dwr32 0x3FFD#32 0#32 0) storeState = .next t) ∧
      5 ≠ halfIndex 0x4#32 ∧ 5 ≠ halfIndex 0x4#32 + 1 := ⟨⟨_, rfl⟩, ⟨_, rfl⟩, ⟨_, rfl⟩, by decide, by decide⟩
theorem witness_RamReadsFrame :
    (∃ t, exec (.rrd8 0x1234#32) ramState = .next t) ∧ (∃ t, exec (.rrd16 0x1234#32) ramState = .next t) ∧
      (∃ t, exec (.rrd32 0x1234#32) ramState = .next t) ∧ 2 ≠ descIndex 0x1234#32 false :=
  ⟨⟨_, rfl⟩, ⟨_, rfl⟩, ⟨_, rfl⟩, by decide⟩
theorem witness_RamWritesFrame :
    (∃ t, exec (.rwr8 0x1234#32 0#32) ramState = .next t) ∧ (∃ t, exec (.rwr16 0x1234#32 0#32) ramState = .next t) ∧
      (∃ t, exec (.rwr32 0x1234#32 0#32) ramState = .next t) ∧
      ∀ k < 4, 0x5233 ≠ ramIndex ramState.cfg (targetOffset ramState 0x1234#32) k :=
  ⟨⟨_, rfl⟩, ⟨_, rfl⟩, ⟨_, rfl⟩, by decide⟩
theorem witness_ContextWritesFrame :
    (∃ t, exec (.setsys 1#32) State.reset = .next t) ∧ (∃ t, exec (.setpid 1#32) State.reset = .next t) :=
  ⟨⟨_, rfl⟩, ⟨_, rfl⟩⟩
theorem witness_EveryStepKeepsTheStateLegal :
    LegalState (State.reset.withFetchWord 8 0x0E) ∧ ∃ t, step (State.reset.withFetchWord 8 0x0E) = .next t :=
  ⟨⟨⟨rfl, rfl⟩, ⟨rfl, rfl⟩, ⟨rfl, rfl⟩, rfl⟩, ⟨_, rfl⟩⟩

end Sys2Proof.Tests
end

section
/-! PROOFS. The state after reset. -/

namespace Sys2Proof.Machine

/-- With no request pending a step holds the state (R40; log 6). -/
theorem step_eq_next_self (s : State) (h : s.requests = []) : step s = .next s := by
  have hfetch : fetchRequest s = none := by simp only [fetchRequest, h]
  simp only [step, hfetch]

/-- RAM_SIZE after reset is the default of R5: 2048 frames of 4096 bytes. -/
theorem ramSize_reset : ramSize State.reset.cfg = 0x800000 := by decide

/-- Settles O56: nothing is listed in the store or in RAM, so every read is of an unlisted cell, and no request is
pending, so the step is the idle one. -/
theorem resetLeavesTheNamedValues : Obligations.ResetLeavesTheNamedValues := by
  unfold Obligations.ResetLeavesTheNamedValues
  refine ⟨ramSize_reset, rfl, rfl, ?store, ?ram, ?idle⟩
  case store => exact fun i => ⟨cellRead_nil i, cellRead_nil i⟩
  case ram => exact fun o => cellRead_nil o
  case idle => exact step_eq_next_self State.reset rfl

end Sys2Proof.Machine
end

section
/-! PROOFS. The legal states: which updates keep a state legal, what a step that gives a next state did, and the
invariant. -/

namespace Sys2Proof.Machine

@[simp] theorem withWordAt_cfg (s : State) (h : Nat) (w : Half) : (withWordAt s h w).cfg = s.cfg := by
  obtain ⟨hcfg, -⟩ := withWordAt_frame s h w
  exact hcfg

@[simp] theorem withWordAt_ram (s : State) (h : Nat) (w : Half) : (withWordAt s h w).ram = s.ram := by
  obtain ⟨-, hram, -⟩ := withWordAt_frame s h w
  exact hram

@[simp] theorem withWordAt_requests (s : State) (h : Nat) (w : Half) : (withWordAt s h w).requests = s.requests := by
  obtain ⟨-, -, -, -, hrequests, -, -⟩ := withWordAt_frame s h w
  exact hrequests

@[simp] theorem memWrite_cfg (s : State) (o n : Nat) (v : Word) : (memWrite s o n v).cfg = s.cfg := by
  obtain ⟨hcfg, -⟩ := memWrite_frame s o n v
  exact hcfg

@[simp] theorem memWrite_up (s : State) (o n : Nat) (v : Word) : (memWrite s o n v).up = s.up := by
  obtain ⟨-, hup, -⟩ := memWrite_frame s o n v
  exact hup

@[simp] theorem memWrite_lo (s : State) (o n : Nat) (v : Word) : (memWrite s o n v).lo = s.lo := by
  obtain ⟨-, -, hlo, -⟩ := memWrite_frame s o n v
  exact hlo

@[simp] theorem memWrite_requests (s : State) (o n : Nat) (v : Word) : (memWrite s o n v).requests = s.requests := by
  obtain ⟨-, -, -, -, -, hrequests, -, -⟩ := memWrite_frame s o n v
  exact hrequests

@[simp] theorem memWrite_response (s : State) (o n : Nat) (v : Word) : (memWrite s o n v).response = s.response := by
  obtain ⟨-, -, -, -, -, -, hresponse, -⟩ := memWrite_frame s o n v
  exact hresponse

/-- Handing back an answer keeps a state legal when a category in it is the one its code collapses to (R145). -/
theorem LegalState.respond {s : State} (hs : LegalState s) {r : Response} (hr : r.consistent = true) :
    LegalState (s.respond r) := by
  obtain ⟨hup, hlo, hram, -⟩ := hs
  exact ⟨hup, hlo, hram, hr⟩

/-- The end of a writing operation counts it and hands back no category. -/
theorem LegalState.countWrite_respond_done {s : State} (hs : LegalState s) :
    LegalState (s.countWrite.respond .done) :=
  LegalState.respond (s := s.countWrite) hs rfl

theorem LegalState.putUpper {s : State} (hs : LegalState s) {i : Nat} (hi : i < 4096) (w : Half) :
    LegalState (s.putUpper i w) := by
  obtain ⟨⟨hcanon, hbelow⟩, hlo, hram, hresp⟩ := hs
  exact ⟨⟨cellsCanonical_cellWrite _ _ _ hcanon, cellsBelow_cellWrite _ _ _ _ hbelow hi⟩, hlo, hram, hresp⟩

theorem LegalState.putLower {s : State} (hs : LegalState s) {i : Nat} (hi : i < 4096) (w : Half) :
    LegalState (s.putLower i w) := by
  obtain ⟨hup, ⟨hcanon, hbelow⟩, hram, hresp⟩ := hs
  exact ⟨hup, ⟨cellsCanonical_cellWrite _ _ _ hcanon, cellsBelow_cellWrite _ _ _ _ hbelow hi⟩, hram, hresp⟩

/-- A halfword below 8192 lies in one of the 4096 entries (R10, R100). -/
theorem LegalState.withWordAt {s : State} (hs : LegalState s) {h : Nat} (hh : h < 8192) (w : Half) :
    LegalState (withWordAt s h w) := by
  have hi : h / 2 < 4096 := by omega
  unfold Machine.withWordAt
  split
  · exact hs.putLower hi w
  · exact hs.putUpper hi w

theorem LegalState.memWrite {s : State} (hs : LegalState s) (o n : Nat) (v : Word) :
    LegalState (memWrite s o n v) := by
  obtain ⟨hup, hlo, ⟨hwf, hbelow⟩, hresp⟩ := hs
  refine ⟨?up, ?lo, ⟨memWrite_wf s o n v hwf, ?below⟩, ?resp⟩
  case up => rwa [memWrite_up]
  case lo => rwa [memWrite_lo]
  case below => rw [memWrite_cfg]; exact memWrite_below s o n v hbelow
  case resp => rwa [memWrite_response]

/-- A RAM-bus access in range marks one of the 4096 entries (R91, R93). -/
theorem LegalState.markAccess {s : State} (hs : LegalState s) {va : Word} (hva : va.toNat < 0x800000)
    (isWrite : Bool) : LegalState (markAccess s (descIndex va s.sys) isWrite) :=
  hs.putUpper (descIndex_lt hva s.sys) _

/-- Every operation that completes on a legal state leaves a legal state. -/
theorem LegalState.exec {i : Instr} {s t : State} (hs : LegalState s) (h : exec i s = .next t) : LegalState t := by
  cases i with
  | drd8 | drd16 | drd32 =>
    obtain ⟨v, rfl⟩ := exec_next h
    exact hs.respond rfl
  | dwr8 | dwr16 =>
    obtain rfl | ⟨hba, w, rfl⟩ := exec_next h
    · exact hs.respond rfl
    · exact (hs.withWordAt (by omega) w).countWrite_respond_done
  | dwr32 =>
    obtain rfl | ⟨hba, hi, lo, rfl⟩ := exec_next h
    · exact hs.respond rfl
    · exact ((hs.withWordAt (by omega) hi).withWordAt (by omega) lo).countWrite_respond_done
  | rrd8 | rrd16 | rrd32 =>
    obtain ⟨hva, v, rfl⟩ := exec_next h
    exact (hs.markAccess hva false).respond rfl
  | rwr8 | rwr16 | rwr32 =>
    obtain ⟨hva, v, rfl⟩ := exec_next h
    exact ((hs.markAccess hva true).memWrite _ _ v).countWrite_respond_done
  | chk =>
    obtain ⟨category, code, hcode, rfl⟩ := exec_next h
    exact hs.respond (decide_eq_true hcode)
  | setsys | setpid =>
    -- `SYS` and `PID` are no part of what makes a state legal
    cases exec_next h
    exact hs.respond (r := .done) rfl

/-- A step that gives a next state held the state, or performed the oldest request on the state without it (R40). -/
theorem step_next {s t : State} (h : step s = .next t) :
    (s.requests = [] ∧ t = s) ∨
      ∃ r rest i, s.requests = r :: rest ∧ decodeRequest r = .ok i ∧
        exec i { s with requests := rest } = .next t := by
  cases hreq : s.requests with
  | nil =>
    rw [step_eq_next_self s hreq] at h
    cases h
    exact .inl ⟨rfl, rfl⟩
  | cons r rest =>
    have hfetch : fetchRequest s = some (r, { s with requests := rest }) := by simp only [fetchRequest, hreq]
    simp only [step, hfetch] at h
    cases hdec : decodeRequest r with
    | error e => simp [hdec] at h
    | ok i => exact .inr ⟨r, rest, i, rfl, hdec, by simpa only [hdec] using h⟩

/-- Settles O58: the idle step holds the state, and any other is an operation on a state that differs from the legal one
only in the requests that wait, which legality does not read. -/
theorem everyStepKeepsTheStateLegal : Obligations.EveryStepKeepsTheStateLegal := by
  intro s t hs h
  obtain ⟨-, rfl⟩ | ⟨r, rest, i, -, -, hexec⟩ := step_next h
  · exact hs
  · have hs' : LegalState { s with requests := rest } := hs
    exact hs'.exec hexec

/-- Settles O57: the base case of the invariant; nothing is listed and nothing has been handed back. -/
theorem resetStateIsLegal : Obligations.ResetStateIsLegal :=
  ⟨⟨rfl, rfl⟩, ⟨rfl, rfl⟩, ⟨reset_memory_wf, rfl⟩, rfl⟩

end Sys2Proof.Machine
end

section
/-! PROOFS. Which operations change the descriptor store, and which change RAM. -/

namespace Sys2Proof.Machine

/-- R93: `referenced` is bit 1 and always set, `altered` bit 0 and set by a write. -/
theorem accessFlags_getLsbD (isWrite : Bool) (k : Nat) :
    (accessFlags isWrite).getLsbD k = (decide (k = 1) || (isWrite && decide (k = 0))) := by
  by_cases hk : k < 16
  · cases isWrite <;> interval_cases k <;> rfl
  · have h0 : k ≠ 0 := by omega
    have h1 : k ≠ 1 := by omega
    simp [BitVec.getLsbD_of_ge _ k (Nat.not_lt.mp hk), h0, h1]

/-- Marking an access sets flag bits of the one entry it names and keeps every other bit of every upper word. -/
theorem markAccess_up_getLsbD (s : State) (i : Nat) (isWrite : Bool) (j k : Nat) :
    (cellRead (markAccess s i isWrite).up j).getLsbD k =
      ((cellRead s.up j).getLsbD k || (decide (j = i) && (decide (k = 1) || (isWrite && decide (k = 0))))) := by
  rw [markAccess_up, cellRead_cellWrite]
  by_cases hj : j = i
  · subst hj
    simp [accessFlags_getLsbD]
  · simp [hj]

/-- Settles O47: by what each operation did (`exec_next`), the RAM bus reaches the store through `markAccess` alone. -/
theorem storeChangesOnlyByItsWriters : Obligations.StoreChangesOnlyByItsWriters := by
  intro i s t h
  cases i with
  | dwr8 | dwr16 | dwr32 => trivial
  | rrd8 | rrd16 | rrd32 =>
    obtain ⟨-, v, rfl⟩ := exec_next h
    exact ⟨rfl, fun j k => by simp [-markAccess_up, markAccess_up_getLsbD]⟩
  | rwr8 | rwr16 | rwr32 =>
    obtain ⟨-, v, rfl⟩ := exec_next h
    exact ⟨by simp, fun j k => by simp [-markAccess_up, markAccess_up_getLsbD]⟩
  | drd8 | drd16 | drd32 =>
    obtain ⟨v, rfl⟩ := exec_next h
    exact ⟨rfl, rfl⟩
  | chk =>
    obtain ⟨category, code, -, rfl⟩ := exec_next h
    exact ⟨rfl, rfl⟩
  | setsys | setpid =>
    cases exec_next h
    exact ⟨rfl, rfl⟩

/-- Settles O48: by what each operation did (`exec_next`), only a RAM-bus write reaches RAM, and no operation reaches
the parameters or the requests that wait (log 5, 6). -/
theorem ramChangesOnlyByRamWrites : Obligations.RamChangesOnlyByRamWrites := by
  intro i s t h
  cases i with
  | rwr8 va data =>
    obtain ⟨-, v, rfl⟩ := exec_next h
    exact ⟨⟨by simp, by simp⟩, fun _ => ⟨va, data, .inl rfl⟩⟩
  | rwr16 va data =>
    obtain ⟨-, v, rfl⟩ := exec_next h
    exact ⟨⟨by simp, by simp⟩, fun _ => ⟨va, data, .inr (.inl rfl)⟩⟩
  | rwr32 va data =>
    obtain ⟨-, v, rfl⟩ := exec_next h
    exact ⟨⟨by simp, by simp⟩, fun _ => ⟨va, data, .inr (.inr rfl)⟩⟩
  | drd8 | drd16 | drd32 =>
    obtain ⟨v, rfl⟩ := exec_next h
    exact ⟨⟨rfl, rfl⟩, fun hram => absurd rfl hram⟩
  | dwr8 | dwr16 =>
    obtain rfl | ⟨-, w, rfl⟩ := exec_next h
    · exact ⟨⟨rfl, rfl⟩, fun hram => absurd rfl hram⟩
    · exact ⟨⟨by simp, by simp⟩, fun hram => absurd (by simp) hram⟩
  | dwr32 =>
    obtain rfl | ⟨-, hi, lo, rfl⟩ := exec_next h
    · exact ⟨⟨rfl, rfl⟩, fun hram => absurd rfl hram⟩
    · exact ⟨⟨by simp, by simp⟩, fun hram => absurd (by simp) hram⟩
  | rrd8 | rrd16 | rrd32 =>
    obtain ⟨-, v, rfl⟩ := exec_next h
    exact ⟨⟨rfl, rfl⟩, fun hram => absurd rfl hram⟩
  | chk =>
    obtain ⟨category, code, -, rfl⟩ := exec_next h
    exact ⟨⟨rfl, rfl⟩, fun hram => absurd rfl hram⟩
  | setsys | setpid =>
    cases exec_next h
    exact ⟨⟨rfl, rfl⟩, fun hram => absurd rfl hram⟩

end Sys2Proof.Machine
end

section
/-! PROOFS. A step performs the oldest pending request and nothing else. -/

namespace Sys2Proof.Machine

/-- The operation the oldest pending request selects, performed on the state without that request (R40, R41). -/
theorem step_eq_exec {s : State} {r : Request} {rest : List Request} {i : Instr} (hreq : s.requests = r :: rest)
    (hdec : decodeRequest r = .ok i) : step s = exec i { s with requests := rest } := by
  have hfetch : fetchRequest s = some (r, { s with requests := rest }) := by simp only [fetchRequest, hreq]
  simp only [step, hfetch, hdec]

/-- Settles O7: the request is fetched, decoded and performed on the state without it. -/
theorem stepPerformsTheDecodedRequest : Obligations.StepPerformsTheDecodedRequest :=
  fun _ _ _ _ hreq hdec => step_eq_exec hreq hdec

/-- Settles O8: with nothing to fetch the step is the idle one. -/
theorem stepWithoutRequestHoldsTheState : Obligations.StepWithoutRequestHoldsTheState :=
  step_eq_next_self

end Sys2Proof.Machine
end

section
/-! PROOFS. The byte accesses of the descriptor bus: how a descriptor access ends, the two lanes of a halfword in shifts
and masks (R36), and DRD8 and DWR8 in and out of range. -/

namespace Sys2Proof.Machine

@[simp] theorem withWordAt_writes (s : State) (h : Nat) (w : Half) : (withWordAt s h w).writes = s.writes := by
  obtain ⟨-, -, -, -, -, -, hwrites⟩ := withWordAt_frame s h w
  exact hwrites

@[simp] theorem finishRead_ok (s : State) (v : Word) : finishRead s (.ok v) = .next (s.respond (.data v)) := rfl

@[simp] theorem finishRead_error (s : State) (f : Fault) : finishRead s (.error f) = .fault f := rfl

/-- The secondary master's write hands back `done` whatever became of it (R108). -/
theorem finishWrite_secondary {s : State} {cpu : CoreId} (hcpu : cpu = s.cfg.secondaryCoreId)
    (written : Except Fault State) : finishWrite s cpu written = .next (s.respond .done) := by
  simp only [finishWrite, if_pos hcpu, complete]

theorem finishWrite_ok {s : State} {cpu : CoreId} (hcpu : cpu ≠ s.cfg.secondaryCoreId) (t : State) :
    finishWrite s cpu (.ok t) = .next (t.countWrite.respond .done) := by
  simp only [finishWrite, if_neg hcpu, completeWrite]

theorem finishWrite_error {s : State} {cpu : CoreId} (hcpu : cpu ≠ s.cfg.secondaryCoreId) (f : Fault) :
    finishWrite s cpu (.error f) = .fault f := by
  simp only [finishWrite, if_neg hcpu]

theorem exec_drd8 (s : State) (ba : Word) : exec (.drd8 ba) s = finishRead s (readLane s ba) := rfl

theorem exec_dwr8 (s : State) (ba data : Word) (cpu : CoreId) :
    exec (.dwr8 ba data cpu) s = finishWrite s cpu (writeLane s ba data) := rfl

/-- The mask `0xFF` keeps the low byte. -/
theorem and_lowByte {n : Nat} (hn : 8 ≤ n) (x : BitVec n) : x &&& 0xFF#n = (x.setWidth 8).setWidth n := by
  have hpow : 2 ^ 8 ≤ 2 ^ n := Nat.pow_le_pow_right (by decide) hn
  apply BitVec.eq_of_toNat_eq
  simp only [BitVec.toNat_and, BitVec.toNat_ofNat, BitVec.toNat_setWidth]
  rw [Nat.mod_eq_of_lt (by omega : 0xFF < 2 ^ n), Nat.mod_eq_of_lt (by omega : x.toNat % 2 ^ 8 < 2 ^ n)]
  exact Nat.and_two_pow_sub_one_eq_mod x.toNat 8

/-- The mask `0xFF00` keeps the high byte. -/
theorem and_highByte (w : Half) : w &&& 0xFF00#16 = w >>> 8 <<< 8 := by
  have hmask : 0xFF00#16 = BitVec.allOnes 16 <<< 8 := rfl
  rw [BitVec.shiftLeft_ushiftRight, hmask]

/-- The high byte of a halfword, taken out and zero-extended, is the halfword shifted down. -/
theorem highByte_setWidth (w : Half) (n : Nat) : ((w >>> 8).setWidth 8).setWidth n = (w >>> 8).setWidth n := by
  have hbyte : (w >>> 8).toNat % 2 ^ 8 = (w >>> 8).toNat := by
    rw [BitVec.toNat_ushiftRight]
    omega
  apply BitVec.eq_of_toNat_eq
  simp only [BitVec.toNat_setWidth, hbyte]

/-- Above the low byte nothing of a halfword survives the shift into the high byte. -/
theorem lowByte_shiftLeft (w : Half) : (w.setWidth 8).setWidth 16 <<< 8 = w <<< 8 := by
  apply BitVec.eq_of_toNat_eq
  simp only [BitVec.toNat_shiftLeft, BitVec.toNat_setWidth]
  omega

/-- Two bytes side by side, by shift and `or`. -/
theorem byte_append (high low : Byte) :
    (high ++ low : Half) = high.setWidth 16 <<< 8 ||| low.setWidth 16 := by
  rw [← BitVec.setWidth_append_eq_shiftLeft_setWidth_or, BitVec.setWidth_eq]

/-- The lane `BA` names, zero-extended, by shift and mask (R36, R65, R103). -/
theorem laneRead_setWidth (ba : Word) (w : Half) :
    (laneRead ba w).setWidth 32 =
      if ba.toNat % 2 = 0 then w.setWidth 32 >>> 8 else w.setWidth 32 &&& 0xFF#32 := by
  have hlow : w.setWidth 8 = (w.setWidth 32).setWidth 8 :=
    (BitVec.setWidth_setWidth_of_le w (by decide)).symm
  rw [laneRead_eq]
  by_cases heven : ba.toNat % 2 = 0
  · rw [if_pos heven, if_pos heven, highByte_setWidth, BitVec.setWidth_ushiftRight (by decide)]
  · rw [if_neg heven, if_neg heven, and_lowByte (by decide), hlow]

/-- The halfword with the low byte of `data` in the lane `BA` names, by shift and mask (R36, R106). -/
theorem laneMerge_dataByte (ba data : Word) (w : Half) :
    laneMerge ba w (dataByte data) =
      if ba.toNat % 2 = 0 then data.setWidth 16 <<< 8 ||| (w &&& 0x00FF#16)
      else (w &&& 0xFF00#16) ||| (data.setWidth 16 &&& 0x00FF#16) := by
  have hdata : dataByte data = (data.setWidth 16).setWidth 8 := by
    rw [dataByte_eq, BitVec.setWidth_setWidth_of_le data (by decide)]
  rw [laneMerge_eq, hdata, byte_append, byte_append, lowByte_shiftLeft, highByte_setWidth, BitVec.setWidth_eq,
    and_lowByte (by decide), and_highByte, and_lowByte (by decide)]

/-- Settles O15: in range `readLane` hands back the lane, else the halfword read aborts. -/
theorem drd8ReturnsTheLane : Obligations.Drd8ReturnsTheLane := by
  intro s ba
  refine ⟨rfl, fun hba => ?inRange, fun hba => ?above⟩
  case inRange => rw [exec_drd8, readLane_ok s hba, finishRead_ok, laneRead_setWidth]; rfl
  case above => rw [exec_drd8, readLane_abort s hba, finishRead_error]

/-- Settles O18: the initiator is compared first (R108); another's write merges the lane, or aborts out of range. -/
theorem dwr8MergesTheLane : Obligations.Dwr8MergesTheLane := by
  intro s ba data cpu
  refine ⟨rfl, fun hcpu => ?secondary, fun hcpu hba => ?inRange, fun hcpu hba => ?above⟩
  case secondary => rw [exec_dwr8, finishWrite_secondary hcpu]; rfl
  case inRange =>
    rw [exec_dwr8, writeLane_ok s hba, finishWrite_ok hcpu, laneMerge_dataByte]
    simp [State.countWrite, State.respond]
  case above => rw [exec_dwr8, writeLane_abort s hba, finishWrite_error hcpu]

end Sys2Proof.Machine
end

section
/-! PROOFS. The encoding of requests: the packing in a number (log 7), the decoder's map (R62), the reserved codes
(R63), and the fields each operation takes from its request (R61). -/

namespace Sys2Proof

open Machine Laws.RequestForm

/-- The fields lie side by side, so the quotients of the packed number give each of them back. -/
@[simp] theorem Request.ofNat_toNat (r : Request) : Request.ofNat r.toNat = r := by
  obtain ⟨op, cpu, addr, data, acc⟩ := r
  have hop := op.isLt
  have hacc := acc.isLt
  have haddr := addr.isLt
  have hdata := data.isLt
  simp only [Request.ofNat, Request.toNat, Request.mk.injEq, BitVec.toNat_eq, BitVec.toNat_ofNat]
  refine ⟨?op, ?cpu, ?addr, ?data, ?acc⟩
  case cpu =>
    change (_ : Nat) = _ -- `omega` does not see through `CoreId`
    omega
  all_goals omega

/-- The five fields cover every bit of the number, `cpu` having no upper bound (R61; log 10). -/
@[simp] theorem Request.toNat_ofNat (w : Nat) : (Request.ofNat w).toNat = w := by
  simp only [Request.ofNat, Request.toNat, BitVec.toNat_ofNat]
  omega

/-- Settles O2: each direction is arithmetic on the fields' places. -/
theorem requestsAndNumbersCorrespond : Obligations.RequestsAndNumbersCorrespond :=
  ⟨Request.ofNat_toNat, Request.toNat_ofNat⟩

/-- The family RequestForm holds of every operation. -/
theorem requestForm : ∀ i : Instr, Statement i
  | .drd8 ba => drd8 ba
  | .drd16 ba => drd16 ba
  | .drd32 ba => drd32 ba
  | .dwr8 ba data cpu => dwr8 ba data cpu
  | .dwr16 ba data cpu => dwr16 ba data cpu
  | .dwr32 ba data cpu => dwr32 ba data cpu
  | .rrd8 va => rrd8 va
  | .rrd16 va => rrd16 va
  | .rrd32 va => rrd32 va
  | .rwr8 va data => rwr8 va data
  | .rwr16 va data => rwr16 va data
  | .rwr32 va data => rwr32 va data
  | .chk va acc => chk va acc
  | .setsys data => setsys data
  | .setpid data => setpid data

@[simp] theorem decodeRequest_encodeRequest (i : Instr) : decodeRequest (encodeRequest i) = .ok i := by
  obtain ⟨-, hdec⟩ := requestForm i
  exact hdec

/-- Settles O1: unpacking gives the operation's request back, and the decoder reads the operation from it. -/
theorem everyOperationSurvivesPacking : Obligations.EveryOperationSurvivesPacking := by
  intro i
  calc decodeWord (encodeWord i)
      = decodeRequest (Request.ofNat (encodeRequest i).toNat) := rfl
    _ = decodeRequest (encodeRequest i) := by rw [Request.ofNat_toNat]
    _ = .ok i := decodeRequest_encodeRequest i

/-- The codes of R63: those with no mnemonic. -/
def reserved : List Nat :=
  [0x03, 0x07, 0x0B, 0x0F, 0x11, 0x12, 0x13, 0x14, 0x15, 0x16, 0x17, 0x18, 0x19, 0x1A, 0x1B, 0x1E, 0x1F]

/-- The seventeen codes of R63 and the fifteen of R62 part the 32 codes between them. -/
theorem mem_reserved_iff (op : BitVec 5) : op.toNat ∈ reserved ↔ op.toNat ∉ assigned := by
  revert op
  decide

/-- What the decoder answers: an operation for the codes of R62, the rejection by name for every other. -/
theorem decodeRequest_cases (r : Request) :
    (r.op.toNat ∈ assigned ∧ ∃ i, decodeRequest r = .ok i) ∨
      (r.op.toNat ∉ assigned ∧ decodeRequest r = .error (.reservedOp r.op)) := by
  unfold decodeRequest
  split
  case h_16 => exact .inr ⟨by simp_all [assigned], rfl⟩ -- the decoder's last branch, for every other code
  all_goals
    next hcode => exact .inl ⟨by simp [assigned, hcode], _, rfl⟩

theorem decodeRequest_ok_of_assigned {r : Request} (h : r.op.toNat ∈ assigned) : ∃ i, decodeRequest r = .ok i := by
  obtain ⟨-, hok⟩ | ⟨hnot, -⟩ := decodeRequest_cases r
  · exact hok
  · exact absurd h hnot

theorem decodeRequest_error_of_reserved {r : Request} (h : r.op.toNat ∈ reserved) :
    decodeRequest r = .error (.reservedOp r.op) := by
  obtain ⟨hmem, -⟩ | ⟨-, herr⟩ := decodeRequest_cases r
  · exact absurd hmem ((mem_reserved_iff r.op).mp h)
  · exact herr

/-- A step that meets a request the decoder rejects is refused, and gives no state (R63). -/
theorem step_eq_refused {s : State} {r : Request} {rest : List Request} {op : BitVec 5}
    (hreq : s.requests = r :: rest) (hdec : decodeRequest r = .error (.reservedOp op)) :
    step s = .refused (.reservedRequest op) := by
  have hfetch : fetchRequest s = some (r, { s with requests := rest }) := by simp only [fetchRequest, hreq]
  simp only [step, hfetch, hdec]

/-- Settles O4: the reserved codes are those with no operation, and the step hands the decoder's rejection on. -/
theorem reservedCodesAreRefused : Obligations.ReservedCodesAreRefused := by
  intro r
  refine ⟨fun hres => ?rejected, fun hnot => ?performed⟩
  case rejected =>
    have herr := decodeRequest_error_of_reserved hres
    exact ⟨herr, fun s rest hreq => step_eq_refused hreq herr⟩
  case performed =>
    have hassigned : r.op.toNat ∈ assigned := not_not.mp fun h => hnot ((mem_reserved_iff r.op).mpr h)
    exact decodeRequest_ok_of_assigned hassigned

/-- Requests with the same code that agree on the fields its rule names select the same operation (R61, D24). -/
theorem decodeRequest_congr {r r' : Request} (hop : r'.op = r.op)
    (hcpu : r.op.toNat ∈ [0x04, 0x05, 0x06] → r'.cpu = r.cpu)
    (hacc : r.op.toNat = 0x10 → r'.acc = r.acc)
    (hdata : r.op.toNat ∉ [0x00, 0x01, 0x02, 0x08, 0x09, 0x0A, 0x10] → r'.data = r.data)
    (haddr : r.op.toNat ∉ [0x1C, 0x1D] → r'.addr = r.addr) :
    decodeRequest r' = decodeRequest r := by
  unfold decodeRequest
  rw [hop]
  -- along the decoder's branches: each takes only fields that its code makes agree
  split <;> simp_all

/-- Settles O5: a request with one field changed agrees with the old one on the fields its code's rule names. -/
theorem unnamedFieldsAreIgnored : Obligations.UnnamedFieldsAreIgnored := by
  intro r i hdec
  refine ⟨fun hop c => ?cpu, fun hop a => ?acc, fun hop d => ?data, fun hop a => ?addr⟩
  all_goals rw [← hdec]
  case cpu => exact decodeRequest_congr rfl (absurd · hop) (fun _ => rfl) (fun _ => rfl) (fun _ => rfl)
  case acc => exact decodeRequest_congr rfl (fun _ => rfl) (absurd · hop) (fun _ => rfl) (fun _ => rfl)
  case data => exact decodeRequest_congr rfl (fun _ => rfl) (fun _ => rfl) (absurd hop ·) (fun _ => rfl)
  case addr => exact decodeRequest_congr rfl (fun _ => rfl) (fun _ => rfl) (fun _ => rfl) (absurd hop ·)

/-- Settles O3: each code is a branch of the decoder of its own. -/
theorem opCodesSelectTheirOperations : Obligations.OpCodesSelectTheirOperations := by
  intro cpu addr data acc
  exact ⟨rfl, rfl, rfl, rfl, rfl, rfl, rfl, rfl, rfl, rfl, rfl, rfl, rfl, rfl, rfl⟩

/-- Settles O6: the five numbers unpacked and decoded. -/
theorem sampleWordsDecode : Obligations.SampleWordsDecode :=
  ⟨rfl, rfl, rfl, rfl, rfl⟩

end Sys2Proof
end

section
/-! PROOFS. The codes the evaluator can give (R59). -/

namespace Sys2Proof.Machine

/-- Step 1 of the evaluator as a field: the disable bits of the requested kinds, moved to the top of the code (R81). -/
theorem forbidden_eq (up lo : Half) (acc : BitVec 3) :
    forbidden up lo acc = (lo.extractLsb' 13 3 &&& acc).setWidth 32 <<< 29 := by
  apply BitVec.eq_of_getLsbD_eq
  intro k hk
  rw [forbidden_getLsbD, BitVec.getLsbD_shiftLeft, BitVec.getLsbD_setWidth, BitVec.getLsbD_and,
    BitVec.getLsbD_extractLsb']
  by_cases h29 : 29 ≤ k
  · have hbit : 13 + (k - 29) = k - 16 := by omega
    have hlow : ¬ k < 29 := by omega
    have hin : k - 29 < 3 := by omega
    have hin32 : k - 29 < 32 := by omega
    simp only [hbit, hk, h29, hlow, hin, hin32, decide_true, decide_false, Bool.true_and, Bool.not_false, Bool.and_true]
  · have hlow : k < 29 := Nat.not_le.mp h29
    simp only [h29, hlow, decide_true, decide_false, Bool.false_and, Bool.not_true, Bool.and_false]

/-- With every kind disabled the protection bits are the access type itself. -/
theorem forbidden_allDisabled (up : Half) (acc : BitVec 3) : forbidden up 0xE000#16 acc = acc.setWidth 32 <<< 29 := by
  have hall : (0xE000#16).extractLsb' 13 3 = BitVec.allOnes 3 := rfl
  rw [forbidden_eq, hall, BitVec.allOnes_and]

/-- Step 2 finds nothing, or the page's owner over the sentinel (R82). -/
theorem ownershipPart_cases (up : Half) (isSys : Bool) (pid : Byte) :
    ownershipPart up isSys pid = 0#32 ∨
      ownershipPart up isSys pid = (ownerId up).setWidth 32 <<< 8 ||| 0xFF#32 := by
  cases isSys with
  | true => exact .inl (ownershipPart_system up pid)
  | false =>
    by_cases howner : ownerId up = pid
    · exact .inl (howner ▸ ownershipPart_owner up false)
    · exact .inr (ownershipPart_fault howner)

/-- An upper word with a given owner. -/
theorem ownerId_append (owner low : Byte) : ownerId (owner ++ low) = owner := by
  rw [ownerId_eq]
  exact BitVec.extractLsb'_append_eq_left

/-- Settles O36: a code is step 1's field or-ed with step 2's part; conversely a page with every kind disabled, asked
for `p`, gives each of them, in system mode the codes with no owner and from a foreign process those with one. -/
theorem legalFaultCodesAreExact : Obligations.LegalFaultCodesAreExact := by
  intro code
  constructor
  · rintro ⟨up, lo, acc, isSys, pid, rfl⟩
    refine ⟨lo.extractLsb' 13 3 &&& acc, ?_⟩
    rw [evaluate, forbidden_eq]
    obtain hpart | hpart := ownershipPart_cases up isSys pid
    · exact .inl (by rw [hpart, BitVec.or_zero])
    · exact .inr ⟨ownerId up, by rw [hpart, BitVec.or_assoc]⟩
  · rintro ⟨p, rfl | ⟨owner, rfl⟩⟩
    · refine ⟨0#16, 0xE000#16, p, true, 0#8, ?_⟩
      rw [evaluate, forbidden_allDisabled, ownershipPart_system, BitVec.or_zero]
    · have hforeign : ownerId (owner ++ 0#8) ≠ owner + 1#8 := by
        rw [ownerId_append]
        bv_omega
      refine ⟨owner ++ 0#8, 0xE000#16, p, false, owner + 1#8, ?_⟩
      rw [evaluate, forbidden_allDisabled, ownershipPart_fault hforeign, ownerId_append, BitVec.or_assoc]

end Sys2Proof.Machine
end

section
/-! PROOFS. The logical value of a descriptor and its bus image (R52, R53). -/

namespace Sys2Proof.Machine

/-- Two halfwords side by side, as numbers. -/
theorem half_append_toNat (high low : Half) : (high ++ low : Word).toNat = high.toNat * 65536 + low.toNat := by
  rw [BitVec.toNat_append, ← Nat.shiftLeft_add_eq_or_of_lt low.isLt, Nat.shiftLeft_eq]

theorem exec_drd32 (s : State) (ba : Word) : exec (.drd32 ba) s = finishRead s (readPair s ba) := rfl

/-- The even halfword of a pair is the upper word (R100). -/
theorem wordAt_upper (s : State) (i : Nat) : wordAt s (2 * i) = cellRead s.up i := by
  simp [wordAt]

/-- The odd halfword of a pair is the lower word (R100). -/
theorem wordAt_lower (s : State) (i : Nat) : wordAt s (2 * i + 1) = cellRead s.lo i := by
  have hodd : (2 * i + 1) % 2 = 1 := by omega
  have hhalf : (2 * i + 1) / 2 = i := by omega
  rw [wordAt, if_pos hodd, hhalf]

/-- Settles O12: the two orders of the halves, and the pair of halfwords at `4i`, which is the upper word and then the
lower. -/
theorem logicalValueAndBusImage : Obligations.LogicalValueAndBusImage := by
  refine ⟨fun up lo => ⟨half_append_toNat lo up, half_append_toNat up lo⟩, fun s i hi => ?_⟩
  have hba : (BitVec.ofNat 32 (4 * i)).toNat = 4 * i := by
    rw [BitVec.toNat_ofNat]
    omega
  have hhalf : 4 * i / 2 = 2 * i := by omega
  rw [exec_drd32, readPair_ok s (by omega), finishRead_ok, hba, hhalf, wordAt_upper, wordAt_lower]
  rfl

end Sys2Proof.Machine
end

section
/-! PROOFS. The fields of a descriptor as numbers, and their encoding (R74, R75). -/

namespace Sys2Proof.Machine

theorem getLsbD_eq_decide (w : Half) (k : Nat) : w.getLsbD k = decide (w.toNat / 2 ^ k % 2 = 1) :=
  Nat.testBit_eq_decide_div_mod_eq

theorem getLsbD_eq_of_toNat {w : Half} {k : Nat} {b : Bool} (h : w.toNat / 2 ^ k % 2 = b.toNat) : w.getLsbD k = b := by
  rw [getLsbD_eq_decide, h]
  cases b <;> rfl

theorem getLsbD_toNat (w : Half) (k : Nat) : (w.getLsbD k).toNat = w.toNat / 2 ^ k % 2 :=
  Nat.toNat_testBit w.toNat k

theorem ownerId_toNat (up : Half) : (ownerId up).toNat = up.toNat / 256 := by
  rw [ownerId_eq, BitVec.extractLsb'_toNat, Nat.shiftRight_eq_div_pow]
  omega

theorem decodeDescriptor_spare_toNat (up lo : Half) : (decodeDescriptor up lo).spare.toNat = up.toNat / 4 % 64 := by
  simp only [decodeDescriptor, layout, BitVec.extractLsb'_toNat, Nat.shiftRight_eq_div_pow]

/-- Settles O10: a field of several bits is a quotient and remainder of its word, a flag is one binary digit. -/
theorem descriptorFieldsStandWhereStated : Obligations.DescriptorFieldsStandWhereStated := by
  intro up lo
  have hread : lo.getLsbD 15 = decide (0x8000 ≤ lo.toNat) := by
    rw [getLsbD_eq_decide, decide_eq_decide]
    omega
  have haltered : up.getLsbD 0 = decide (up.toNat % 2 = 1) := by
    rw [getLsbD_eq_decide, Nat.pow_zero, Nat.div_one]
  exact ⟨physicalPage_toNat lo, hread, getLsbD_eq_decide lo 14, getLsbD_eq_decide lo 13, ownerId_toNat up,
    decodeDescriptor_spare_toNat up lo, getLsbD_eq_decide up 1, haltered⟩

/-- A field placed above the bits of `low`, none of its own leaving the word, adds to the word's number. -/
theorem field_or_toNat {n pos : Nat} (x : BitVec n) {low : Half} (hfit : n + pos ≤ 16) (hlow : low.toNat < 2 ^ pos) :
    (x.setWidth 16 <<< pos ||| low).toNat = x.toNat * 2 ^ pos + low.toNat := by
  have hx : x.toNat * 2 ^ pos < 2 ^ 16 :=
    calc x.toNat * 2 ^ pos < 2 ^ n * 2 ^ pos := Nat.mul_lt_mul_of_pos_right x.isLt (Nat.two_pow_pos pos)
      _ = 2 ^ (n + pos) := (Nat.pow_add 2 n pos).symm
      _ ≤ 2 ^ 16 := Nat.pow_le_pow_right (by decide) hfit
  rw [BitVec.toNat_or, BitVec.toNat_shiftLeft, BitVec.toNat_setWidth_of_le (by omega), Nat.shiftLeft_eq,
    Nat.mod_eq_of_lt hx, ← Nat.shiftLeft_eq, ← Nat.shiftLeft_add_eq_or_of_lt hlow]

/-- The same for a field of one bit. -/
theorem fieldBit_or_toNat (b : Bool) {pos : Nat} {low : Half} (hfit : pos < 16) (hlow : low.toNat < 2 ^ pos) :
    (fieldBit b pos ||| low).toNat = b.toNat * 2 ^ pos + low.toNat := by
  rw [fieldBit, field_or_toNat _ (by omega) hlow, BitVec.toNat_ofBool]

theorem encodeLower_eq (d : Descriptor) :
    encodeLower d = fieldBit d.readDisabled 15 ||| (fieldBit d.writeDisabled 14 |||
      (fieldBit d.execDisabled 13 ||| d.physicalPage.setWidth 16)) := by
  simp only [encodeLower, layout, BitVec.shiftLeft_zero, BitVec.or_assoc]

theorem encodeUpper_eq (d : Descriptor) :
    encodeUpper d = d.ownerId.setWidth 16 <<< 8 ||| (d.spare.setWidth 16 <<< 2 |||
      (fieldBit d.referenced 1 ||| (BitVec.ofBool d.altered).setWidth 16)) := by
  simp only [encodeUpper, fieldBit, layout, BitVec.shiftLeft_zero, BitVec.or_assoc]

/-- R75: `{read_dis, write_dis, exec_dis, physical_page}`, from the lowest field up. -/
theorem encodeLower_toNat (d : Descriptor) :
    (encodeLower d).toNat =
      d.readDisabled.toNat * 0x8000 + d.writeDisabled.toNat * 0x4000 + d.execDisabled.toNat * 0x2000 +
        d.physicalPage.toNat := by
  have hx := d.execDisabled.toNat_lt
  have hw := d.writeDisabled.toNat_lt
  have hpage : (d.physicalPage.setWidth 16).toNat = d.physicalPage.toNat := BitVec.toNat_setWidth_of_le (by decide)
  have hexec := fieldBit_or_toNat d.execDisabled (pos := 13) (by decide) (hpage.trans_lt d.physicalPage.isLt)
  have hwrite := fieldBit_or_toNat d.writeDisabled (pos := 14) (by decide) (hexec.trans_lt (by omega))
  have hread := fieldBit_or_toNat d.readDisabled (pos := 15) (by decide) (hwrite.trans_lt (by omega))
  rw [encodeLower_eq, hread, hwrite, hexec, hpage]
  omega

/-- R75: `{owner_id, spare, referenced, altered}`, from the lowest field up. -/
theorem encodeUpper_toNat (d : Descriptor) :
    (encodeUpper d).toNat =
      d.ownerId.toNat * 0x100 + d.spare.toNat * 4 + d.referenced.toNat * 2 + d.altered.toNat := by
  have ha := d.altered.toNat_lt
  have hr := d.referenced.toNat_lt
  have haltered : ((BitVec.ofBool d.altered).setWidth 16).toNat = d.altered.toNat := by
    rw [BitVec.toNat_setWidth_of_le (by decide), BitVec.toNat_ofBool]
  have hreferenced := fieldBit_or_toNat d.referenced (pos := 1) (by decide) (haltered.trans_lt ha)
  have hspare := field_or_toNat d.spare (pos := 2) (by decide) (hreferenced.trans_lt (by omega))
  have howner := field_or_toNat d.ownerId (pos := 8) (by decide) (hspare.trans_lt (by omega))
  rw [encodeUpper_eq, howner, hspare, hreferenced, haltered]
  omega

/-- R75: the upper word comes back from its fields. -/
theorem encodeUpper_decodeDescriptor (up lo : Half) : encodeUpper (decodeDescriptor up lo) = up := by
  have howner : (decodeDescriptor up lo).ownerId.toNat = up.toNat / 256 := ownerId_toNat up
  have hreferenced : (decodeDescriptor up lo).referenced.toNat = up.toNat / 2 ^ 1 % 2 := getLsbD_toNat up 1
  have haltered : (decodeDescriptor up lo).altered.toNat = up.toNat / 2 ^ 0 % 2 := getLsbD_toNat up 0
  apply BitVec.eq_of_toNat_eq
  rw [encodeUpper_toNat, howner, decodeDescriptor_spare_toNat, hreferenced, haltered]
  omega

/-- R75: the lower word comes back from its fields. -/
theorem encodeLower_decodeDescriptor (up lo : Half) : encodeLower (decodeDescriptor up lo) = lo := by
  have hread : (decodeDescriptor up lo).readDisabled.toNat = lo.toNat / 2 ^ 15 % 2 := getLsbD_toNat lo 15
  have hwrite : (decodeDescriptor up lo).writeDisabled.toNat = lo.toNat / 2 ^ 14 % 2 := getLsbD_toNat lo 14
  have hexec : (decodeDescriptor up lo).execDisabled.toNat = lo.toNat / 2 ^ 13 % 2 := getLsbD_toNat lo 13
  have hpage : (decodeDescriptor up lo).physicalPage.toNat = lo.toNat % 8192 := physicalPage_toNat lo
  apply BitVec.eq_of_toNat_eq
  rw [encodeLower_toNat, hread, hwrite, hexec, hpage]
  omega

/-- R75: every field comes back from the two words. -/
theorem decodeDescriptor_encode (d : Descriptor) : decodeDescriptor (encodeUpper d) (encodeLower d) = d := by
  have hlo := encodeLower_toNat d
  have hup := encodeUpper_toNat d
  have hread := d.readDisabled.toNat_lt
  have hwrite := d.writeDisabled.toNat_lt
  have hexec := d.execDisabled.toNat_lt
  have hreferenced := d.referenced.toNat_lt
  have haltered := d.altered.toNat_lt
  refine Eq.mpr (Descriptor.mk.injEq ..) ⟨BitVec.eq_of_toNat_eq ?page, getLsbD_eq_of_toNat ?read,
    getLsbD_eq_of_toNat ?write, getLsbD_eq_of_toNat ?exec, BitVec.eq_of_toNat_eq ?owner, BitVec.eq_of_toNat_eq ?spare,
    getLsbD_eq_of_toNat ?referenced, getLsbD_eq_of_toNat ?altered⟩
  case page => rw [physicalPage_toNat]; omega
  case owner => rw [ownerId_toNat]; omega
  case spare => exact (decodeDescriptor_spare_toNat _ (encodeLower d)).trans (by omega)
  case read | write | exec | referenced | altered => simp only [layout]; omega

/-- Settles O11: both round trips by the numbers of the fields and of the words; a spare of 0 adds nothing. -/
theorem descriptorEncodeDecodeInverse : Obligations.DescriptorEncodeDecodeInverse := by
  refine ⟨fun up lo => ⟨encodeUpper_decodeDescriptor up lo, encodeLower_decodeDescriptor up lo⟩,
    decodeDescriptor_encode, fun d => ⟨encodeLower_toNat d, encodeUpper_toNat d⟩,
    fun _ _ _ _ _ referenced altered => ?_⟩
  have hreferenced := referenced.toNat_lt
  have haltered := altered.toNat_lt
  simp only [encodeUpper_toNat, BitVec.toNat_zero]
  omega

end Sys2Proof.Machine
end

section
/-! PROOFS. The primitives of the descriptor store (R70 to R73). -/

namespace Sys2Proof.Machine

theorem dsSetUpper_ok (s : State) {i : Nat} (h : i < 4096) (w : Half) : dsSetUpper s i w = .ok (s.putUpper i w) :=
  if_neg (Nat.not_le.mpr h)

theorem dsSetLower_ok (s : State) {i : Nat} (h : i < 4096) (w : Half) : dsSetLower s i w = .ok (s.putLower i w) :=
  if_neg (Nat.not_le.mpr h)

theorem dsSetUpper_abort (s : State) {i : Nat} (h : 4096 ≤ i) (w : Half) : dsSetUpper s i w = .error .assertRange :=
  if_pos h

theorem dsSetLower_abort (s : State) {i : Nat} (h : 4096 ≤ i) (w : Half) : dsSetLower s i w = .error .assertRange :=
  if_pos h

/-- Settles O13: in range each setter is one cell write, which the cell laws read back; above, all three abort. -/
theorem storePrimitives : Obligations.StorePrimitives := by
  intro s i w
  refine ⟨fun hi => ?inRange, fun hi => ⟨dsGet_abort s hi, dsSetUpper_abort s hi w, dsSetLower_abort s hi w⟩⟩
  case inRange =>
    have hlt : i < 4096 := Nat.lt_succ_of_le hi
    exact ⟨dsGet_ok s hlt,
      ⟨s.putUpper i w, dsSetUpper_ok s hlt w, cellRead_cellWrite_same .., fun _ => cellRead_cellWrite_other _ _, rfl⟩,
      ⟨s.putLower i w, dsSetLower_ok s hlt w, cellRead_cellWrite_same .., fun _ => cellRead_cellWrite_other _ _, rfl⟩⟩

end Sys2Proof.Machine
end

section
/-! PROOFS. The evaluator bit by bit, and the properties R85 states of its category. -/

namespace Sys2Proof.Machine

/-- The owner test of R82 on numbers. -/
theorem ownerId_eq_iff (up : Half) (pid : Byte) : ownerId up = pid ↔ up.toNat / 256 = pid.toNat := by
  rw [← ownerId_toNat, BitVec.toNat_inj]

/-- Step 2 finds nothing when ownership is satisfied (R82). -/
theorem ownershipPart_satisfied {up : Half} {isSys : Bool} {pid : Byte} (h : isSys = true ∨ ownerId up = pid) :
    ownershipPart up isSys pid = 0#32 := by
  obtain rfl | rfl := h
  · exact ownershipPart_system up pid
  · exact ownershipPart_owner up isSys

/-- The owner id in the fault code stands where it stands in the upper word. -/
theorem ownerId_shiftLeft (up : Half) : (ownerId up).setWidth 32 <<< 8 = (up &&& 0xFF00#16).setWidth 32 := by
  apply BitVec.eq_of_getLsbD_eq
  intro k hk
  rw [BitVec.getLsbD_shiftLeft, BitVec.getLsbD_setWidth, BitVec.getLsbD_setWidth, BitVec.getLsbD_and, ownerId_eq,
    BitVec.getLsbD_extractLsb']
  have hmask : (0xFF00#16).getLsbD k = (decide (8 ≤ k) && decide (k < 16)) := by
    interval_cases k <;> rfl
  rw [hmask]
  by_cases h8 : 8 ≤ k
  · have hbit : 8 + (k - 8) = k := by omega
    have hend : k - 8 < 8 ↔ k < 16 := by omega
    have hlow : ¬ k < 8 := by omega
    have hin : k - 8 < 32 := by omega
    simp [hbit, hk, h8, hend, hlow, hin, Bool.and_comm]
  · have hlow : k < 8 := Nat.not_le.mp h8
    simp [h8, hlow]

/-- Step 2 as a halfword: the upper word's owner byte over the sentinel, or nothing (R82). -/
theorem ownershipPart_eq (up : Half) (isSys : Bool) (pid : Byte) :
    ownershipPart up isSys pid =
      (if isSys = false ∧ ownerId up ≠ pid then (up &&& 0xFF00#16) ||| 0x00FF#16 else 0#16).setWidth 32 := by
  split
  case isTrue h =>
    obtain ⟨rfl, howner⟩ := h
    rw [ownershipPart_fault howner, ownerId_shiftLeft, BitVec.setWidth_or]
    rfl
  case isFalse h => exact if_neg h

/-- Above the low halfword the code is step 1's (R83). -/
theorem evaluate_getLsbD_high (up lo : Half) (acc : BitVec 3) (isSys : Bool) (pid : Byte) {k : Nat} (hk : 16 ≤ k) :
    (evaluate up lo acc isSys pid).getLsbD k = (forbidden up lo acc).getLsbD k := by
  rw [evaluate, BitVec.getLsbD_or, ownershipPart_eq, BitVec.getLsbD_setWidth, BitVec.getLsbD_of_ge _ k hk,
    Bool.and_false, Bool.or_false]

/-- Below its three bits step 1 leaves nothing in the code (R81). -/
theorem forbidden_extractLsb'_low (up lo : Half) (acc : BitVec 3) {start len : Nat} (h : start + len ≤ 29) :
    (forbidden up lo acc).extractLsb' start len = 0#len := by
  ext i hi
  have h29 : ¬ 29 ≤ start + i := by omega
  simp [forbidden_getLsbD, h29]

/-- The low halfword of the code is step 2's (R83). -/
theorem evaluate_extractLsb'_low (up lo : Half) (acc : BitVec 3) (isSys : Bool) (pid : Byte) :
    (evaluate up lo acc isSys pid).extractLsb' 0 16 =
      if isSys = false ∧ ownerId up ≠ pid then (up &&& 0xFF00#16) ||| 0x00FF#16 else 0#16 := by
  rw [evaluate, BitVec.extractLsb'_or, forbidden_extractLsb'_low up lo acc (by decide), BitVec.zero_or,
    ownershipPart_eq, ← BitVec.setWidth_eq_extractLsb' (by decide), BitVec.setWidth_setWidth_of_le _ (by decide),
    BitVec.setWidth_eq]

/-- Settles O35: the protection bits are step 1's, the low halfword is step 2's; neither reaches the bits between. -/
theorem evaluateGivesEveryBit : Obligations.EvaluateGivesEveryBit := by
  intro up lo acc isSys pid
  refine ⟨?read, ?write, ?exec, ?between, evaluate_extractLsb'_low up lo acc isSys pid⟩
  case read | write | exec =>
    rw [evaluate_getLsbD_high _ _ _ _ _ (by decide), forbidden_getLsbD]
    rfl
  case between =>
    rw [← forbidden_extractLsb'_low up lo acc (show 16 + 13 ≤ 29 by decide)]
    ext i hi
    simp only [BitVec.getElem_extractLsb']
    exact evaluate_getLsbD_high up lo acc isSys pid (by omega)

/-- Settles O37: step 2, which alone reads `PID` and sets the sentinel, finds nothing in system mode. -/
theorem systemModeBypassesOwnership : Obligations.SystemModeBypassesOwnership := by
  intro up lo acc pid pid'
  constructor
  · rw [collapse_evaluate_owned (ownershipPart_system up pid)]
    split <;> decide
  · rw [evaluate, evaluate, ownershipPart_system, ownershipPart_system]

/-- Settles O38: the owner test on numbers, then the precedence of the sentinel. -/
theorem foreignPagesGiveOwnershipFault : Obligations.ForeignPagesGiveOwnershipFault :=
  fun up _ _ pid hforeign => collapse_evaluate_foreign ((ownerId_eq_iff up pid).not.mpr hforeign)

/-- Step 1 finds nothing exactly when no requested kind is disabled (R81). -/
theorem forbidden_eq_zero_iff (up lo : Half) (acc : BitVec 3) :
    forbidden up lo acc = 0#32 ↔ lo.extractLsb' 13 3 &&& acc = 0#3 := by
  rw [forbidden_eq]
  generalize lo.extractLsb' 13 3 &&& acc = p
  constructor
  · intro h
    bv_omega
  · rintro rfl
    rfl

/-- Settles O39: with step 2 empty the category is whether step 1 found anything. -/
theorem ownedPagesFollowDisableBits : Obligations.OwnedPagesFollowDisableBits := by
  intro up lo acc isSys pid h
  have hpart : ownershipPart up isSys pid = 0#32 :=
    ownershipPart_satisfied (h.imp_right (ownerId_eq_iff up pid).mpr)
  simp only [collapse_evaluate_owned hpart, forbidden_eq_zero_iff, BitVec.and_zero, ite_not, if_true, and_self]

/-- Step 1 reads of the lower word the bits above the frame number only. -/
theorem forbidden_congr {up up' lo lo' : Half} (acc : BitVec 3) (h : lo.toNat / 8192 = lo'.toNat / 8192) :
    forbidden up lo acc = forbidden up' lo' acc := by
  have hdisable : lo.extractLsb' 13 3 = lo'.extractLsb' 13 3 := by
    apply BitVec.eq_of_toNat_eq
    simp only [BitVec.extractLsb'_toNat, Nat.shiftRight_eq_div_pow]
    omega
  rw [forbidden_eq, forbidden_eq, hdisable]

/-- Step 2 reads of the upper word the owner only. -/
theorem ownershipPart_congr {up up' : Half} (isSys : Bool) (pid : Byte) (h : ownerId up = ownerId up') :
    ownershipPart up isSys pid = ownershipPart up' isSys pid := by
  rw [ownershipPart, ownershipPart, h]

/-- Settles O40: step 1 sees of the descriptor the disable bits, step 2 the owner. -/
theorem evaluateIgnoresFrameAndFlags : Obligations.EvaluateIgnoresFrameAndFlags := by
  intro up up' lo lo' acc isSys pid hup hlo
  have howner : ownerId up = ownerId up' := (ownerId_eq_iff up _).mpr (hup.trans (ownerId_toNat up').symm)
  rw [evaluate, evaluate, forbidden_congr acc hlo, ownershipPart_congr isSys pid howner]

end Sys2Proof.Machine
end

section
/-! PROOFS. The translator in numbers (R90 to R95): the flags it sets, and the offset as a remainder and as a mask. -/

namespace Sys2Proof.Machine

theorem accessFlags_eq (isWrite : Bool) : accessFlags isWrite = if isWrite = true then 0x0003#16 else 0x0002#16 := by
  cases isWrite with
  | false => exact accessFlags_read
  | true => exact accessFlags_write

/-- RAM_SIZE is a power of two (R5, D11; log 3). -/
theorem ramSize_eq_two_pow (c : Params) : ramSize c = 2 ^ (12 + c.ramFrameBits) :=
  (Nat.pow_add 2 12 c.ramFrameBits).symm

/-- R94: the frame number over the twelve offset bits of the address, reduced modulo RAM_SIZE. -/
theorem physicalOffset_eq (c : Params) (lo : Half) (va : Word) :
    physicalOffset c lo va = (lo.toNat % 8192 * 4096 + va.toNat % 4096) % ramSize c := by
  rw [physicalOffset, rawOffset_toNat, physicalPage_toNat]

/-- R94: the remainder by RAM_SIZE is the mask of the bits below it. -/
theorem mod_ramSize (c : Params) (raw : Nat) : raw % ramSize c = raw &&& (ramSize c - 1) := by
  rw [ramSize_eq_two_pow, Nat.and_two_pow_sub_one_eq_mod]

/-- Settles O24: at the page limit and above `translate` aborts; below it, it marks the entry the table half selects and
hands back the offset. -/
theorem translateFollowsItsFourSteps : Obligations.TranslateFollowsItsFourSteps := by
  intro s va isWrite
  refine ⟨fun hpage => translate_abort s (by omega) isWrite, fun hpage => ?inRange⟩
  case inRange =>
    have hva : va.toNat < 0x800000 := by omega
    refine ⟨descIndex va s.sys, descIndex_eq va s.sys, Nat.le_of_lt_succ (descIndex_lt hva s.sys), ?_⟩
    rw [translate_ok s hva, markAccess, accessFlags_eq, targetOffset, physicalOffset_eq]
    rfl

/-- Settles O25: the offset is a remainder by RAM_SIZE, a power of two, which the mask gives too. -/
theorem targetOffsetIsMaskedIntoRam : Obligations.TargetOffsetIsMaskedIntoRam := by
  intro s va
  refine ⟨?masked, targetOffset_lt s va⟩
  case masked => rw [targetOffset, physicalOffset_eq, mod_ramSize]

end Sys2Proof.Machine
end

section
/-! PROOFS. The accesses of the descriptor bus in range, which word of a descriptor `BA` names, and DRD16, DRD32, DWR16
and DWR32 in and out of range. -/

namespace Sys2Proof.Machine

theorem exec_drd16 (s : State) (ba : Word) : exec (.drd16 ba) s = finishRead s (readHalf s ba) := rfl

theorem exec_dwr16 (s : State) (ba data : Word) (cpu : CoreId) :
    exec (.dwr16 ba data cpu) s = finishWrite s cpu (writeHalf s ba data) := rfl

theorem exec_dwr32 (s : State) (ba data : Word) (cpu : CoreId) :
    exec (.dwr32 ba data cpu) s = finishWrite s cpu (writePair s ba data) := rfl

theorem exec_drd8_ok (s : State) {ba : Word} (hba : ba.toNat ≤ 0x3FFF) :
    exec (.drd8 ba) s = .next (s.respond (.data ((laneRead ba (wordAt s (ba.toNat / 2))).setWidth 32))) := by
  rw [exec_drd8, readLane_ok s hba, finishRead_ok]

theorem exec_drd16_ok (s : State) {ba : Word} (hba : ba.toNat ≤ 0x3FFF) :
    exec (.drd16 ba) s = .next (s.respond (.data ((wordAt s (ba.toNat / 2)).setWidth 32))) := by
  rw [exec_drd16, readHalf_ok s hba, finishRead_ok]

theorem exec_drd32_ok (s : State) {ba : Word} (hba : ba.toNat ≤ 0x3FFD) :
    exec (.drd32 ba) s =
      .next (s.respond (.data (wordAt s (ba.toNat / 2) ++ wordAt s (ba.toNat / 2 + 1)))) := by
  rw [exec_drd32, readPair_ok s hba, finishRead_ok]

theorem exec_dwr8_ok {s : State} {ba : Word} {cpu : CoreId} (hcpu : cpu ≠ s.cfg.secondaryCoreId)
    (hba : ba.toNat ≤ 0x3FFF) (data : Word) :
    exec (.dwr8 ba data cpu) s =
      .next ((withWordAt s (ba.toNat / 2)
        (laneMerge ba (wordAt s (ba.toNat / 2)) (dataByte data))).countWrite.respond .done) := by
  rw [exec_dwr8, writeLane_ok s hba, finishWrite_ok hcpu]

theorem exec_dwr16_ok {s : State} {ba : Word} {cpu : CoreId} (hcpu : cpu ≠ s.cfg.secondaryCoreId)
    (hba : ba.toNat ≤ 0x3FFF) (data : Word) :
    exec (.dwr16 ba data cpu) s =
      .next ((withWordAt s (ba.toNat / 2) (dataHalf data)).countWrite.respond .done) := by
  rw [exec_dwr16, writeHalf_ok s hba, finishWrite_ok hcpu]

theorem exec_dwr32_ok {s : State} {ba : Word} {cpu : CoreId} (hcpu : cpu ≠ s.cfg.secondaryCoreId)
    (hba : ba.toNat ≤ 0x3FFD) (data : Word) :
    exec (.dwr32 ba data cpu) s =
      .next ((withWordAt (withWordAt s (ba.toNat / 2) (dataHighHalf data)) (ba.toNat / 2 + 1)
        (dataHalf data)).countWrite.respond .done) := by
  rw [exec_dwr32, writePair_ok s hba, finishWrite_ok hcpu]

/-- Bit 1 of a byte address selects the word of the descriptor (R100). -/
theorem wordAt_div_two (s : State) (n : Nat) :
    wordAt s (n / 2) = if n / 2 % 2 = 0 then cellRead s.up (n / 4) else cellRead s.lo (n / 4) := by
  rw [wordAt, Nat.div_div_eq_div_mul]
  by_cases hodd : n / 2 % 2 = 1
  · rw [if_pos hodd, if_neg (by omega)]
  · rw [if_neg hodd, if_pos (by omega)]

theorem withWordAt_even {h : Nat} (heven : h % 2 = 0) (s : State) (w : Half) :
    withWordAt s h w = s.putUpper (h / 2) w :=
  if_neg (by omega)

theorem withWordAt_odd {h : Nat} (hodd : h % 2 = 1) (s : State) (w : Half) :
    withWordAt s h w = s.putLower (h / 2) w :=
  if_pos hodd

/-- Two halfwords side by side, by shift and `or`. -/
theorem half_append (high low : Half) : (high ++ low : Word) = high.setWidth 32 <<< 16 ||| low.setWidth 32 := by
  rw [← BitVec.setWidth_append_eq_shiftLeft_setWidth_or, BitVec.setWidth_eq]

/-- Settles O14: in range `readHalf` hands back the word that bit 1 of `BA` selects, else the halfword read aborts. -/
theorem drd16ReturnsTheHalfword : Obligations.Drd16ReturnsTheHalfword := by
  intro s ba
  refine ⟨rfl, fun hba => ?inRange, fun hba => ?above⟩
  case inRange => rw [exec_drd16_ok s hba, wordAt_div_two]; rfl
  case above => rw [exec_drd16, readHalf_abort s hba, finishRead_error]

/-- Settles O16: in range `readPair` hands back the two halfwords side by side, else the second halfword aborts. -/
theorem drd32ReturnsTwoHalfwords : Obligations.Drd32ReturnsTwoHalfwords := by
  intro s ba
  refine ⟨rfl, fun hba => ?inRange, fun hba => ?above⟩
  case inRange => rw [exec_drd32_ok s hba, half_append]; rfl
  case above => rw [exec_drd32, readPair_abort s hba, finishRead_error]

/-- Settles O17: the initiator is compared first (R108); another's write replaces the word that bit 1 of `BA` selects,
or aborts out of range. -/
theorem dwr16WritesTheHalfword : Obligations.Dwr16WritesTheHalfword := by
  intro s ba data cpu
  have hindex : ba.toNat / 2 / 2 = ba.toNat / 4 := Nat.div_div_eq_div_mul ..
  refine ⟨rfl, fun hcpu => ?secondary, fun hcpu hba heven => ?upper, fun hcpu hba hodd => ?lower,
    fun hcpu hba => ?above⟩
  case secondary => rw [exec_dwr16, finishWrite_secondary hcpu]; rfl
  case upper => rw [exec_dwr16_ok hcpu hba, withWordAt_even heven, hindex, dataHalf_eq]; rfl
  case lower => rw [exec_dwr16_ok hcpu hba, withWordAt_odd hodd, hindex, dataHalf_eq]; rfl
  case above => rw [exec_dwr16, writeHalf_abort s hba, finishWrite_error hcpu]

/-- Settles O19: the initiator is compared first (R108); another's write replaces the two halfwords, or aborts out of
range. -/
theorem dwr32WritesTwoHalfwords : Obligations.Dwr32WritesTwoHalfwords := by
  intro s ba data cpu
  refine ⟨rfl, fun hcpu => ?secondary, fun hcpu hba => ?inRange, fun hcpu hba => ?above⟩
  case secondary => rw [exec_dwr32, finishWrite_secondary hcpu]; rfl
  case inRange =>
    rw [exec_dwr32_ok hcpu hba, dataHighHalf_eq, dataHalf_eq, State.countWrite, withWordAt_writes, withWordAt_writes]
    rfl
  case above => rw [exec_dwr32, writePair_abort s hba, finishWrite_error hcpu]

end Sys2Proof.Machine
end

section
/-! PROOFS. What was written to the descriptor bus reads back (R110): two DWR16 against one DWR32, the halves of the
data, and the two lanes of a halfword. -/

namespace Sys2Proof.Machine

@[simp] theorem wordAt_respond (s : State) (r : Response) (h : Nat) : wordAt (s.respond r) h = wordAt s h := rfl

@[simp] theorem wordAt_countWrite (s : State) (h : Nat) : wordAt s.countWrite h = wordAt s h := rfl

@[simp] theorem wordAt_withWordAt_same (s : State) (h : Nat) (w : Half) : wordAt (withWordAt s h w) h = w := by
  rw [wordAt_withWordAt, if_pos rfl]

theorem wordAt_withWordAt_other (s : State) {h j : Nat} (w : Half) (hne : j ≠ h) :
    wordAt (withWordAt s h w) j = wordAt s j := by
  rw [wordAt_withWordAt, if_neg hne]

/-- Where a write stores does not depend on the model's own fields. -/
theorem withWordAt_countWrite_respond (s : State) (r : Response) (h : Nat) (w : Half) :
    withWordAt (s.countWrite.respond r) h w = (withWordAt s h w).countWrite.respond r := by
  unfold withWordAt
  split <;> rfl

/-- How a writing operation ends touches the model's own fields only (R7; log 8, 9). -/
theorem sameBlockState_countWrite_respond (s : State) (r : Response) : sameBlockState s (s.countWrite.respond r) :=
  ⟨rfl, rfl, rfl, rfl, rfl⟩

theorem dataHalf_ushiftRight (v : Word) : dataHalf (v >>> 16) = dataHighHalf v := by
  rw [dataHalf_eq, dataHighHalf_eq]

/-- The mask `0xFFFF` keeps the low halfword. -/
theorem and_lowHalf (v : Word) : v &&& 0xFFFF#32 = (dataHalf v).setWidth 32 := by
  apply BitVec.eq_of_toNat_eq
  rw [dataHalf_eq, BitVec.toNat_and, BitVec.toNat_setWidth_of_le (by decide), BitVec.toNat_setWidth]
  exact Nat.and_two_pow_sub_one_eq_mod v.toNat 16

theorem dataHalf_and_lowHalf (v : Word) : dataHalf (v &&& 0xFFFF#32) = dataHalf v := by
  rw [and_lowHalf, dataHalf_eq ((dataHalf v).setWidth 32), BitVec.setWidth_setWidth_of_le _ (by decide),
    BitVec.setWidth_eq]

theorem dataHighHalf_setWidth (v : Word) : (dataHighHalf v).setWidth 32 = v >>> 16 := by
  rw [dataHighHalf_eq]
  bv_omega

/-- The two halves of a datum side by side are the datum. -/
theorem dataHighHalf_append_dataHalf (v : Word) : dataHighHalf v ++ dataHalf v = v :=
  BitVec.extractLsb'_append_extractLsb'_eq_extractLsb' (by rfl) |>.trans (BitVec.extractLsb'_eq_self ..)

/-- Settles O21: the two DWR16 store the same halves at the same places as DWR32 (with one count more), and each
halfword reads back as the half stored there. -/
theorem dwr32EqualsTwoDwr16 : Obligations.Dwr32EqualsTwoDwr16 := by
  intro s ba v cpu hcpu hba
  have hindex : (ba + 2#32).toNat / 2 = ba.toNat / 2 + 1 := by bv_omega
  have hba₁ : ba.toNat ≤ 0x3FFF := by omega
  have hba₂ : (ba + 2#32).toNat ≤ 0x3FFF := by omega
  refine ⟨_, _, _, exec_dwr32_ok hcpu hba v, exec_dwr16_ok hcpu hba₁ (v >>> 16),
    exec_dwr16_ok (by simpa using hcpu) hba₂ (v &&& 0xFFFF#32), ?same, ?first, ?second, ?whole⟩
  case same =>
    rw [hindex, dataHalf_ushiftRight, dataHalf_and_lowHalf, withWordAt_countWrite_respond]
    exact sameBlockState_countWrite_respond _ .done
  case first =>
    rw [exec_drd16_ok _ hba₁, wordAt_respond, wordAt_countWrite, wordAt_withWordAt_other _ _ (by omega),
      wordAt_withWordAt_same, dataHighHalf_setWidth]
    rfl
  case second =>
    rw [exec_drd16_ok _ hba₂, hindex, wordAt_respond, wordAt_countWrite, wordAt_withWordAt_same, ← and_lowHalf]
    rfl
  case whole =>
    simp only [exec_drd32_ok _ hba, wordAt_respond, wordAt_countWrite, wordAt_withWordAt_same]
    rw [wordAt_withWordAt_other _ _ (by omega), wordAt_withWordAt_same, dataHighHalf_append_dataHalf]
    rfl

/-- The lane written reads back. -/
theorem laneRead_laneMerge_same (ba : Word) (w : Half) (b : Byte) : laneRead ba (laneMerge ba w b) = b := by
  unfold laneRead laneMerge
  split
  · exact BitVec.extractLsb'_append_eq_right
  · exact BitVec.extractLsb'_append_eq_left

/-- The other lane reads as before. -/
theorem laneRead_laneMerge_neighbour (ba : Word) (w : Half) (b : Byte) :
    laneRead (ba ^^^ 1#32) (laneMerge ba w b) = laneRead (ba ^^^ 1#32) w := by
  have hlane : (ba ^^^ 1#32).getLsbD 0 = !ba.getLsbD 0 := by simp
  unfold laneRead laneMerge
  rw [hlane]
  cases ba.getLsbD 0 with
  | true => exact BitVec.extractLsb'_append_eq_left
  | false => exact BitVec.extractLsb'_append_eq_right

/-- The two bytes of a halfword have the same halfword index. -/
theorem neighbour_div_two (ba : Word) : (ba ^^^ 1#32).toNat / 2 = ba.toNat / 2 := by
  rw [BitVec.toNat_xor, Nat.xor_div_two]
  exact Nat.xor_zero _

/-- Settles O22: the halfword that was stored reads back, and with it the lane merged into it and the lane kept. -/
theorem descriptorWritesReadBack : Obligations.DescriptorWritesReadBack := by
  intro s ba v cpu hcpu hba
  have hindex := neighbour_div_two ba
  have hba' : (ba ^^^ 1#32).toNat ≤ 0x3FFF := by omega
  refine ⟨⟨_, exec_dwr16_ok hcpu hba v, ?half⟩,
    ⟨_, exec_dwr8_ok hcpu hba v, ?byte, _, exec_drd8_ok s hba', ?neighbour⟩⟩
  case half =>
    rw [exec_drd16_ok _ hba, wordAt_respond, wordAt_countWrite, wordAt_withWordAt_same, ← and_lowHalf]
    rfl
  case byte =>
    rw [exec_drd8_ok _ hba, wordAt_respond, wordAt_countWrite, wordAt_withWordAt_same, laneRead_laneMerge_same,
      dataByte_eq, ← and_lowByte (by decide)]
    rfl
  case neighbour =>
    rw [exec_drd8_ok _ hba', hindex, wordAt_respond, wordAt_countWrite, wordAt_withWordAt_same,
      laneRead_laneMerge_neighbour]
    rfl

end Sys2Proof.Machine
end

section
/-! PROOFS. What the descriptor bus and the pre-check leave unchanged. -/

namespace Sys2Proof.Machine

@[simp] theorem withWordAt_sys (s : State) (h : Nat) (w : Half) : (withWordAt s h w).sys = s.sys := by
  obtain ⟨-, -, hsys, -⟩ := withWordAt_frame s h w
  exact hsys

@[simp] theorem withWordAt_pid (s : State) (h : Nat) (w : Half) : (withWordAt s h w).pid = s.pid := by
  obtain ⟨-, -, -, hpid, -⟩ := withWordAt_frame s h w
  exact hpid

/-- Settles O20: the initiator is compared before anything else, so nothing but the answer changes. -/
theorem secondaryMasterWritesAreDiscarded : Obligations.SecondaryMasterWritesAreDiscarded := by
  intro s ba data i hi
  have hdiscarded : exec i s = .next (s.respond .done) := by
    simp only [List.mem_cons, List.not_mem_nil, or_false] at hi
    obtain rfl | rfl | rfl := hi <;> exact finishWrite_secondary rfl _
  exact ⟨s.respond .done, hdiscarded, ⟨rfl, rfl, rfl, rfl, rfl⟩, rfl, rfl⟩

/-- A descriptor read or a `CHK` that completes changes nothing but what it hands back (R102, R103, R104, R144). -/
theorem read_or_chk_next {s t : State} {a : Word} {acc : BitVec 3} {i : Instr}
    (hi : i ∈ [Instr.drd8 a, .drd16 a, .drd32 a, .chk a acc]) (h : exec i s = .next t) : ∃ r, t = s.respond r := by
  simp only [List.mem_cons, List.not_mem_nil, or_false] at hi
  obtain rfl | rfl | rfl | rfl := hi
  case inr.inr.inr =>
    obtain ⟨category, code, -, ht⟩ := exec_next h
    exact ⟨_, ht⟩
  all_goals
    obtain ⟨v, ht⟩ := exec_next h
    exact ⟨_, ht⟩

/-- Settles O51: only the answer differs (`read_or_chk_next`), and none of the fields named is the answer. -/
theorem readsAndChecksFrame : Obligations.ReadsAndChecksFrame := by
  intro s t a acc i hi h
  obtain ⟨r, rfl⟩ := read_or_chk_next hi h
  exact ⟨⟨rfl, rfl⟩, rfl, rfl, rfl, fun _ => rfl, fun _ => rfl, fun _ => rfl⟩

/-- Settles O52: a write that completes was discarded, or stored at the halfwords `BA` names (`exec_next`). -/
theorem descriptorWritesFrame : Obligations.DescriptorWritesFrame := by
  intro s t ba data cpu
  refine ⟨fun i hi h j hj => ?halfword, fun h j hj₁ hj₂ => ?pair, fun i hi h => ?rest⟩
  case halfword =>
    rw [halfIndex_eq] at hj
    simp only [List.mem_cons, List.not_mem_nil, or_false] at hi
    obtain rfl | rfl := hi
    all_goals
      obtain rfl | ⟨-, w, rfl⟩ := exec_next h
      · rfl
      · exact wordAt_withWordAt_other s w hj
  case pair =>
    rw [halfIndex_eq] at hj₁ hj₂
    obtain rfl | ⟨-, high, low, rfl⟩ := exec_next h
    · rfl
    · exact (wordAt_withWordAt_other _ low hj₂).trans (wordAt_withWordAt_other s high hj₁)
  case rest =>
    simp only [List.mem_cons, List.not_mem_nil, or_false] at hi
    obtain rfl | rfl | rfl := hi
    case inr.inr =>
      obtain rfl | ⟨-, high, low, rfl⟩ := exec_next h
      · exact ⟨⟨rfl, rfl⟩, rfl, rfl, fun _ => rfl⟩
      · simp [sameSurroundings]
    all_goals
      obtain rfl | ⟨-, w, rfl⟩ := exec_next h
      · exact ⟨⟨rfl, rfl⟩, rfl, rfl, fun _ => rfl⟩
      · simp [sameSurroundings]

end Sys2Proof.Machine
end

section
/-! PROOFS. The RAM bus: which of the two meanings each operation has (R120), the bytes it moves (R37), and RRD8, RRD16,
RRD32, RWR8, RWR16 and RWR32 below and above the ceiling. -/

namespace Sys2Proof.Machine

theorem exec_rrd8 (s : State) (va : Word) : exec (.rrd8 va) s = ramRead s va 1 := rfl

theorem exec_rrd16 (s : State) (va : Word) : exec (.rrd16 va) s = ramRead s va 2 := rfl

theorem exec_rrd32 (s : State) (va : Word) : exec (.rrd32 va) s = ramRead s va 4 := rfl

theorem exec_rwr8 (s : State) (va data : Word) :
    exec (.rwr8 va data) s = ramWrite s va 1 ((dataByte data).setWidth 32) := rfl

theorem exec_rwr16 (s : State) (va data : Word) :
    exec (.rwr16 va data) s = ramWrite s va 2 ((dataHalf data).setWidth 32) := rfl

theorem exec_rwr32 (s : State) (va data : Word) : exec (.rwr32 va data) s = ramWrite s va 4 data := rfl

/-- A RAM-bus read marks its entry `referenced` alone (R93). -/
theorem markAccess_read (s : State) (i : Nat) :
    markAccess s i false = s.putUpper i (cellRead s.up i ||| 0x0002#16) := by
  rw [markAccess, accessFlags_read]

/-- A RAM-bus write marks its entry `referenced` and `altered` (R93). -/
theorem markAccess_write (s : State) (i : Nat) :
    markAccess s i true = s.putUpper i (cellRead s.up i ||| 0x0003#16) := by
  rw [markAccess, accessFlags_write]

theorem ramIndex_zero (c : Params) {o : Nat} (ho : o < ramSize c) : ramIndex c o 0 = o :=
  Nat.mod_eq_of_lt ho

/-- A byte put under a word shifted up by eight bits, in numbers. -/
theorem shiftLeft_or_byte_toNat (x : Word) (b : Byte) :
    (x <<< 8 ||| b.setWidth 32).toNat = (x.toNat * 256 + b.toNat) % 2 ^ 32 := by
  have happend : x <<< 8 ||| b.setWidth 32 = (x ++ b).setWidth 32 := by
    rw [BitVec.setWidth_append_eq_shiftLeft_setWidth_or, BitVec.setWidth_eq]
  rw [happend, BitVec.toNat_setWidth, BitVec.toNat_append, ← Nat.shiftLeft_add_eq_or_of_lt b.isLt, Nat.shiftLeft_eq]

/-- The byte at the highest index is the least significant (R34). -/
theorem memRead_succ_toNat (s : State) (o n : Nat) :
    (memRead s o (n + 1)).toNat = ((memRead s o n).toNat * 256 + (ramAt s o n).toNat) % 2 ^ 32 :=
  shiftLeft_or_byte_toNat (memRead s o n) (ramAt s o n)

@[simp] theorem memRead_zero (s : State) (o : Nat) : memRead s o 0 = 0#32 := rfl

theorem memRead_one (s : State) {o : Nat} (ho : o < ramSize s.cfg) :
    memRead s o 1 = (cellRead s.ram o).setWidth 32 := by
  simp [memRead, ramIndex_zero s.cfg ho]

theorem memRead_two (s : State) (o : Nat) :
    memRead s o 2 = BitVec.ofNat 32 ((ramAt s o 0).toNat * 256 + (ramAt s o 1).toNat) := by
  apply BitVec.eq_of_toNat_eq
  simp only [memRead_succ_toNat, memRead_zero, BitVec.toNat_ofNat]
  omega

theorem memRead_four (s : State) (o : Nat) :
    memRead s o 4 = BitVec.ofNat 32 ((ramAt s o 0).toNat * 0x1000000 + (ramAt s o 1).toNat * 0x10000 +
      (ramAt s o 2).toNat * 0x100 + (ramAt s o 3).toNat) := by
  apply BitVec.eq_of_toNat_eq
  simp only [memRead_succ_toNat, memRead_zero, BitVec.toNat_ofNat]
  omega

/-- The last byte takes the low byte of the value, those before it the rest (R37). -/
theorem memWrite_succ (s : State) (o n : Nat) (v : Word) :
    memWrite s o (n + 1) v = (memWrite s o n (v >>> 8)).putByte (ramIndex s.cfg o n) (v.setWidth 8) := by
  rw [← dataByte_eq]
  rfl

theorem memWrite_one (s : State) {o : Nat} (ho : o < ramSize s.cfg) (v : Word) :
    memWrite s o 1 v = s.putByte o (v.setWidth 8) := by
  rw [memWrite_succ, ramIndex_zero s.cfg ho, memWrite]

theorem memWrite_two (s : State) {o : Nat} (ho : o < ramSize s.cfg) (v : Word) :
    memWrite s o 2 v =
      (s.putByte o ((v >>> 8).setWidth 8)).putByte (ramIndex s.cfg o 1) (v.setWidth 8) := by
  rw [memWrite_succ, memWrite_one s ho]

theorem memWrite_four (s : State) {o : Nat} (ho : o < ramSize s.cfg) (v : Word) :
    memWrite s o 4 v =
      (((s.putByte o ((v >>> 24).setWidth 8)).putByte (ramIndex s.cfg o 1) ((v >>> 16).setWidth 8)).putByte
        (ramIndex s.cfg o 2) ((v >>> 8).setWidth 8)).putByte (ramIndex s.cfg o 3) (v.setWidth 8) := by
  rw [memWrite_succ, memWrite_succ, memWrite_two s ho, ← BitVec.shiftRight_add v 8 8, ← BitVec.shiftRight_add v 16 8]

theorem dataByte_setWidth_setWidth (data : Word) : ((dataByte data).setWidth 32).setWidth 8 = data.setWidth 8 := by
  rw [BitVec.setWidth_setWidth_of_le _ (by decide), BitVec.setWidth_eq, dataByte_eq]

theorem dataHalf_setWidth_lowByte (data : Word) : ((dataHalf data).setWidth 32).setWidth 8 = data.setWidth 8 := by
  rw [dataHalf_eq]
  bv_omega

theorem dataHalf_setWidth_highByte (data : Word) :
    ((dataHalf data).setWidth 32 >>> 8).setWidth 8 = (data >>> 8).setWidth 8 := by
  rw [dataHalf_eq]
  bv_omega

/-- Settles O27: below the ceiling `ramRead` marks the entry `referenced` and hands back the one byte at the offset. -/
theorem rrd8ReadsOneByte : Obligations.Rrd8ReadsOneByte := by
  intro s va
  refine ⟨rfl, fun hva => ?below, fun hva => ramRead_abort s hva 1⟩
  case below =>
    rw [exec_rrd8, ramRead_ok s hva, memRead_one s (targetOffset_lt s va), markAccess_read]
    rfl

/-- Settles O28: below the ceiling `ramRead` marks the entry `referenced` and hands back two bytes in order. -/
theorem rrd16ReadsTwoBytes : Obligations.Rrd16ReadsTwoBytes := by
  intro s va
  refine ⟨rfl, fun hva => ?below, fun hva => ramRead_abort s hva 2⟩
  case below =>
    rw [exec_rrd16, ramRead_ok s hva, memRead_two, markAccess_read]
    rfl

/-- Settles O29: below the ceiling `ramRead` marks the entry `referenced` and hands back four bytes in order. -/
theorem rrd32ReadsFourBytes : Obligations.Rrd32ReadsFourBytes := by
  intro s va
  refine ⟨rfl, fun hva => ?below, fun hva => ramRead_abort s hva 4⟩
  case below =>
    rw [exec_rrd32, ramRead_ok s hva, memRead_four, markAccess_read]
    rfl

/-- Settles O30: below the ceiling `ramWrite` marks the entry with both flags and stores the low byte at the offset. -/
theorem rwr8WritesOneByte : Obligations.Rwr8WritesOneByte := by
  intro s va data
  refine ⟨rfl, fun hva => ?below, fun hva => ramWrite_abort s hva 1 _⟩
  case below =>
    rw [exec_rwr8, ramWrite_ok s hva, memWrite_one (markAccess s _ true) (targetOffset_lt s va),
      dataByte_setWidth_setWidth, markAccess_write]
    rfl

/-- Settles O31: below the ceiling `ramWrite` marks the entry with both flags and stores the two bytes of the low
halfword in order. -/
theorem rwr16WritesTwoBytes : Obligations.Rwr16WritesTwoBytes := by
  intro s va data
  refine ⟨rfl, fun hva => ?below, fun hva => ramWrite_abort s hva 2 _⟩
  case below =>
    rw [exec_rwr16, ramWrite_ok s hva, memWrite_two (markAccess s _ true) (targetOffset_lt s va),
      dataHalf_setWidth_highByte, dataHalf_setWidth_lowByte, markAccess_write]
    rfl

/-- Settles O32: below the ceiling `ramWrite` marks the entry with both flags and stores the four bytes in order. -/
theorem rwr32WritesFourBytes : Obligations.Rwr32WritesFourBytes := by
  intro s va data
  refine ⟨rfl, fun hva => ?below, fun hva => ramWrite_abort s hva 4 data⟩
  case below =>
    rw [exec_rwr32, ramWrite_ok s hva, memWrite_four (markAccess s _ true) (targetOffset_lt s va), markAccess_write]
    rfl

end Sys2Proof.Machine
end

section
/-! PROOFS. What the RAM bus leaves unchanged, what it looks at, and that what was written reads back. -/

namespace Sys2Proof.Machine

@[simp] theorem memWrite_sys (s : State) (o n : Nat) (v : Word) : (memWrite s o n v).sys = s.sys := by
  obtain ⟨-, -, -, hsys, -⟩ := memWrite_frame s o n v
  exact hsys

@[simp] theorem memWrite_pid (s : State) (o n : Nat) (v : Word) : (memWrite s o n v).pid = s.pid := by
  obtain ⟨-, -, -, -, hpid, -⟩ := memWrite_frame s o n v
  exact hpid

theorem exec_eq_ramRead {va : Word} {i : Instr} (hi : i ∈ [Instr.rrd8 va, .rrd16 va, .rrd32 va]) :
    ∃ n, ∀ s, exec i s = ramRead s va n := by
  simp only [List.mem_cons, List.not_mem_nil, or_false] at hi
  obtain rfl | rfl | rfl := hi
  · exact ⟨1, fun s => exec_rrd8 s va⟩
  · exact ⟨2, fun s => exec_rrd16 s va⟩
  · exact ⟨4, fun s => exec_rrd32 s va⟩

theorem exec_eq_ramWrite {va data : Word} {n : Nat} {i : Instr}
    (hi : (n, i) ∈ [(1, Instr.rwr8 va data), (2, .rwr16 va data), (4, .rwr32 va data)]) :
    ∃ v, ∀ s, exec i s = ramWrite s va n v := by
  simp only [List.mem_cons, List.not_mem_nil, or_false, Prod.mk.injEq] at hi
  obtain ⟨rfl, rfl⟩ | ⟨rfl, rfl⟩ | ⟨rfl, rfl⟩ := hi
  · exact ⟨_, fun s => exec_rwr8 s va data⟩
  · exact ⟨_, fun s => exec_rwr16 s va data⟩
  · exact ⟨_, fun s => exec_rwr32 s va data⟩

/-- Settles O53: a read that completes marked the entry of the page and handed back a value (`ramRead_next`). -/
theorem ramReadsFrame : Obligations.RamReadsFrame := by
  intro s t va i hi h
  obtain ⟨n, hexec⟩ := exec_eq_ramRead hi
  rw [hexec] at h
  obtain ⟨-, v, rfl⟩ := ramRead_next h
  exact ⟨⟨rfl, rfl⟩, rfl, rfl, rfl, fun j hj => cellRead_cellWrite_other _ _ hj, fun _ => rfl, fun _ => rfl⟩

/-- Settles O54: a write that completes marked the entry of the page and wrote `n` bytes (`ramWrite_next`), and a byte
that is none of them reads as before. -/
theorem ramWritesFrame : Obligations.RamWritesFrame := by
  intro s t va data n i hi h
  obtain ⟨v, hexec⟩ := exec_eq_ramWrite hi
  rw [hexec] at h
  obtain ⟨-, rfl⟩ := ramWrite_next h
  refine ⟨⟨by simp, by simp⟩, by simp, by simp, fun j hj => ?upper, by simp, fun o ho => ?byte⟩
  case upper => simp [cellRead_cellWrite_other _ _ hj]
  case byte => exact memWrite_other (markAccess s _ true) _ n v o ho

/-- The offset depends on the mode, the frame number and RAM_SIZE alone (R92, R94). -/
theorem targetOffset_congr {s t : State} {va : Word} (hcfg : t.cfg = s.cfg) (hsys : t.sys = s.sys)
    (hpage : physicalPage (cellRead t.lo (descIndex va s.sys)) = physicalPage (cellRead s.lo (descIndex va s.sys))) :
    targetOffset t va = targetOffset s va := by
  rw [targetOffset, targetOffset, physicalOffset, physicalOffset, hcfg, hsys, hpage]

/-- What `MemWrite` leaves in RAM depends on RAM and its size alone. -/
theorem memWrite_ram_congr {s t : State} (hram : t.ram = s.ram) (hcfg : t.cfg = s.cfg) (o n : Nat) (v : Word) :
    (memWrite t o n v).ram = (memWrite s o n v).ram := by
  induction n generalizing v with
  | zero => exact hram
  | succ n ih => rw [memWrite_succ, memWrite_succ, State.putByte_ram, State.putByte_ram, ih, hcfg]

/-- Settles O33: the access goes to the same offset in both states (`targetOffset_congr`), and what it reads or writes
there depends on RAM alone. -/
theorem ramBusIgnoresPermissionsAndOwner : Obligations.RamBusIgnoresPermissionsAndOwner := by
  intro s t va data hva hcfg hram hsys hpage i hi
  have hoffset := targetOffset_congr hcfg hsys hpage
  obtain hread | hwrite := List.mem_append (s := [Instr.rrd8 va, .rrd16 va, .rrd32 va]).mp hi
  · obtain ⟨n, hexec⟩ := exec_eq_ramRead hread
    refine ⟨_, _, (hexec s).trans (ramRead_ok s hva n), (hexec t).trans (ramRead_ok t hva n), ?_, hram⟩
    simp only [State.respond_response, hoffset, memRead_congr hram hcfg]
  · obtain ⟨⟨n, _⟩, hmem, rfl⟩ := List.mem_map.mp
      (show i ∈ [(1, Instr.rwr8 va data), (2, .rwr16 va data), (4, .rwr32 va data)].map Prod.snd from hwrite)
    obtain ⟨v, hexec⟩ := exec_eq_ramWrite hmem
    refine ⟨_, _, (hexec s).trans (ramWrite_ok s hva n v), (hexec t).trans (ramWrite_ok t hva n v), rfl, ?_⟩
    rw [hoffset]
    exact memWrite_ram_congr (s := markAccess s _ true) (t := markAccess t _ true) hram hcfg _ n v

/-- A byte outside the access does not show in what it reads. -/
theorem memRead_putByte_other (s : State) (o n : Nat) {a : Nat} (b : Byte) (h : ∀ k < n, ramIndex s.cfg o k ≠ a) :
    memRead (s.putByte a b) o n = memRead s o n := by
  induction n with
  | zero => rfl
  | succ n ih =>
    rw [memRead, memRead, ih fun k hk => h k (by omega), State.putByte_ram, State.putByte_cfg,
      cellRead_cellWrite_other _ _ (h n (by omega))]

/-- Eight bits of a value under the bits above them, up to a width of `n + 8`. -/
theorem ushiftRight_shiftLeft_or_setWidth (v : Word) (n : Nat) :
    ((v >>> 8).setWidth n).setWidth 32 <<< 8 ||| (v.setWidth 8).setWidth 32 = (v.setWidth (n + 8)).setWidth 32 := by
  ext i hi
  by_cases h8 : i < 8
  · have hn : i < n + 8 := by omega
    simp [h8, hn]
  · have hn : i - 8 < n ↔ i < n + 8 := by omega
    have hadd : 8 + (i - 8) = i := by omega
    simp [h8, hn, hadd]

/-- What `MemWrite` stored, `MemRead` of the same width hands back, cut to that width: the bytes of one access do not
overlap (R128). -/
theorem memRead_memWrite (s : State) (o : Nat) {n : Nat} (hn : n ≤ 4) (v : Word) :
    memRead (memWrite s o n v) o n = (v.setWidth (8 * n)).setWidth 32 := by
  induction n generalizing v with
  | zero => exact BitVec.eq_of_toNat_eq (by simp [Nat.mod_one])
  | succ n ih =>
    have hapart : ∀ k < n, ramIndex s.cfg o k ≠ ramIndex s.cfg o n := fun k hk heq =>
      Nat.ne_of_lt hk (ramIndex_inj s.cfg o (by omega) (by omega) heq)
    rw [memWrite_succ, memRead, memRead_putByte_other _ _ _ _ (by simpa using hapart), ih (by omega)]
    simp only [State.putByte_ram, State.putByte_cfg, memWrite_cfg, cellRead_cellWrite_same]
    exact ushiftRight_shiftLeft_or_setWidth v (8 * n)

/-- How a writing operation ends does not show in what is read next. -/
theorem memRead_countWrite_respond (s : State) (r : Response) (o n : Nat) :
    memRead (s.countWrite.respond r) o n = memRead s o n :=
  memRead_congr (s := s) (t := s.countWrite.respond r) rfl rfl o n

/-- A write of `n` bytes and at once the read of `n` bytes: neither the flags nor RAM move the offset. -/
theorem ramWrite_ramRead (s : State) {va : Word} (hva : va.toNat < 0x800000) {n : Nat} (hn : n ≤ 4) {v x : Word}
    (hx : (v.setWidth (8 * n)).setWidth 32 = x) :
    ∃ t u, ramWrite s va n v = .next t ∧ t.response = .done ∧ ramRead t va n = .next u ∧ u.response = .data x := by
  refine ⟨_, _, ramWrite_ok s hva n v, rfl, ramRead_ok _ hva n, ?_⟩
  have hoffset : targetOffset ((memWrite (markAccess s (descIndex va s.sys) true) (targetOffset s va) n
      v).countWrite.respond .done) va = targetOffset s va :=
    targetOffset_congr (by simp) (by simp) (by simp)
  rw [State.respond_response, hoffset, memRead_countWrite_respond, memRead_memWrite _ _ hn, hx]

/-- Settles O34: below the ceiling nothing aborts, and `ramWrite_ramRead` gives the value back at each width. -/
theorem ramWriteThenReadReturnsTheValue : Obligations.RamWriteThenReadReturnsTheValue := by
  intro s va v hva
  refine ⟨fun i hi => ?read, ramWrite_ramRead s hva (by decide) ?byte, ramWrite_ramRead s hva (by decide) ?half,
    ramWrite_ramRead s hva (by decide) ?word⟩
  case read =>
    obtain ⟨n, hexec⟩ := exec_eq_ramRead hi
    exact ⟨_, _, (hexec s).trans (ramRead_ok s hva n), rfl⟩
  case byte => rw [dataByte_setWidth_setWidth, and_lowByte (by decide)]
  case half => rw [BitVec.setWidth_setWidth_of_le (dataHalf v) (by decide), and_lowHalf]; rfl
  case word => rw [BitVec.setWidth_eq, BitVec.setWidth_eq]

end Sys2Proof.Machine
end

section
/-! PROOFS. The pre-check port: the answer of CHK as a function of the state (R140 to R143), what that answer depends on
(R144), and that neither CHK nor an access in range waits or aborts. -/

namespace Sys2Proof.Machine

/-- What `CHK` hands back: the ceiling rule, else the evaluation of the descriptor of the page and mode (R142, R143). -/
def checkAnswer (s : State) (va : Word) (acc : BitVec 3) : Response :=
  if 0x800000 ≤ va.toNat then checkAboveCeiling s va acc
  else checkDescriptor s acc (cellRead s.up (descIndex va s.sys)) (cellRead s.lo (descIndex va s.sys))

theorem checkAnswer_above (s : State) {va : Word} (hva : 0x800000 ≤ va.toNat) (acc : BitVec 3) :
    checkAnswer s va acc = checkAboveCeiling s va acc :=
  if_pos hva

theorem checkAnswer_system {s : State} {va : Word} (hva : 0x800000 ≤ va.toNat) (hsys : s.sys = true) (acc : BitVec 3) :
    checkAnswer s va acc = .check .ok 0#32 := by
  rw [checkAnswer_above s hva, checkAboveCeiling, if_pos hsys]

theorem checkAnswer_user {s : State} {va : Word} (hva : 0x800000 ≤ va.toNat) (hsys : s.sys = false) (acc : BitVec 3) :
    checkAnswer s va acc = .check .protectionFault (ceilingFaultCode s.writes va acc) := by
  rw [checkAnswer_above s hva, checkAboveCeiling, if_neg (Bool.eq_false_iff.mp hsys)]

theorem checkAnswer_below (s : State) {va : Word} (hva : va.toNat < 0x800000) (acc : BitVec 3) :
    checkAnswer s va acc =
      checkDescriptor s acc (cellRead s.up (descIndex va s.sys)) (cellRead s.lo (descIndex va s.sys)) :=
  if_neg (Nat.not_le.mpr hva)

/-- `CHK` completes from every state and changes nothing but what it hands back (R140, R144). -/
theorem exec_chk (s : State) (va : Word) (acc : BitVec 3) :
    exec (.chk va acc) s = .next (s.respond (checkAnswer s va acc)) := by
  by_cases hva : 0x800000 ≤ va.toNat
  · rw [checkAnswer_above s hva]
    exact execChk_above s hva acc
  · have hbelow : va.toNat < 0x800000 := Nat.not_le.mp hva
    rw [checkAnswer_below s hbelow]
    exact execChk_below s hbelow acc

/-- What was handed back before plays no part in the answer. -/
@[simp] theorem checkAnswer_respond (s : State) (r : Response) (va : Word) (acc : BitVec 3) :
    checkAnswer (s.respond r) va acc = checkAnswer s va acc := rfl

/-- The flags an access sets lie outside the owner field (R51, R93). -/
theorem ownerId_or_accessFlags (up : Half) (isWrite : Bool) : ownerId (up ||| accessFlags isWrite) = ownerId up := by
  have hflags : (accessFlags isWrite).extractLsb' 8 8 = 0#8 := by cases isWrite <;> rfl
  rw [ownerId_eq, ownerId_eq, BitVec.extractLsb'_or, hflags, BitVec.or_zero]

/-- No access to a page changes the owner of any page. -/
theorem markAccess_ownerId (s : State) (i : Nat) (isWrite : Bool) (j : Nat) :
    ownerId (cellRead (markAccess s i isWrite).up j) = ownerId (cellRead s.up j) := by
  rw [markAccess_up, cellRead_cellWrite]
  split
  case isTrue hj => rw [hj, ownerId_or_accessFlags]
  case isFalse => rfl

/-- The evaluator reads of the upper word the owner only (R85 P5). -/
theorem evaluate_congr_upper {up up' : Half} (howner : ownerId up = ownerId up') (lo : Half) (acc : BitVec 3)
    (isSys : Bool) (pid : Byte) : evaluate up lo acc isSys pid = evaluate up' lo acc isSys pid := by
  rw [evaluate, evaluate, forbidden_congr acc rfl, ownershipPart_congr isSys pid howner]

/-- The flags a RAM-bus access sets do not show in what `CHK` answers for any page. -/
theorem checkAnswer_markAccess (s : State) (i : Nat) (isWrite : Bool) (va : Word) (acc : BitVec 3) :
    checkAnswer (markAccess s i isWrite) va acc = checkAnswer s va acc := by
  by_cases hva : 0x800000 ≤ va.toNat
  · rw [checkAnswer_above _ hva, checkAnswer_above s hva]
    rfl
  · have hbelow : va.toNat < 0x800000 := Nat.not_le.mp hva
    have howner := markAccess_ownerId s i isWrite (descIndex va s.sys)
    simp only [checkAnswer_below _ hbelow, checkDescriptor, markAccess_sys, markAccess_pid, markAccess_lo,
      evaluate_congr_upper howner]

/-- An operation that writes nothing leaves every answer of `CHK` as it was: at most it marks one entry (R144). -/
theorem checkAnswer_of_reading {i : Instr} {w u : State} {a : Word} {acc' : BitVec 3}
    (hi : i ∈ [Instr.drd8 a, .drd16 a, .drd32 a, .rrd8 a, .rrd16 a, .rrd32 a, .chk a acc']) (h : exec i w = .next u)
    (va : Word) (acc : BitVec 3) : checkAnswer u va acc = checkAnswer w va acc := by
  cases i with
  | drd8 | drd16 | drd32 =>
    obtain ⟨v, rfl⟩ := exec_next h
    rfl
  | rrd8 | rrd16 | rrd32 =>
    obtain ⟨-, v, rfl⟩ := exec_next h
    rw [checkAnswer_respond, checkAnswer_markAccess]
  | chk =>
    obtain ⟨category, code, -, rfl⟩ := exec_next h
    rfl
  | dwr8 | dwr16 | dwr32 | rwr8 | rwr16 | rwr32 | setsys | setpid => simp at hi

/-- A RAM-bus access in range completes from every state (R144). -/
theorem ramBus_completes (s : State) {va : Word} (hva : va.toNat < 0x800000) (data : Word) {i : Instr}
    (hi : i ∈ [Instr.rrd8 va, .rrd16 va, .rrd32 va, .rwr8 va data, .rwr16 va data, .rwr32 va data]) :
    ∃ u, exec i s = .next u := by
  simp only [List.mem_cons, List.not_mem_nil, or_false] at hi
  obtain rfl | rfl | rfl | rfl | rfl | rfl := hi
  · exact ⟨_, ramRead_ok s hva 1⟩
  · exact ⟨_, ramRead_ok s hva 2⟩
  · exact ⟨_, ramRead_ok s hva 4⟩
  · exact ⟨_, ramWrite_ok s hva 1 _⟩
  · exact ⟨_, ramWrite_ok s hva 2 _⟩
  · exact ⟨_, ramWrite_ok s hva 4 data⟩

/-- Settles O43: `CHK` hands back `checkAnswer`, which neither an answer nor a mark in the store changes. -/
theorem chkHasNoSideEffectAndRepeats : Obligations.ChkHasNoSideEffectAndRepeats := by
  refine ⟨fun s va acc => ?repeats, fun w u va a acc acc' i hi h => ?reading,
    fun s va data hva i hi => ramBus_completes s hva data hi⟩
  case repeats =>
    refine ⟨_, exec_chk s va acc, ⟨rfl, rfl, rfl, rfl, rfl⟩, ?_⟩
    rw [exec_chk, checkAnswer_respond]
    rfl
  case reading => exact ⟨_, _, exec_chk w va acc, exec_chk u va acc, checkAnswer_of_reading hi h va acc⟩

/-- R142: "FC[7:0] = 0", in numbers. -/
theorem ceilingFaultCode_mod (writes : Nat) (va : Word) (acc : BitVec 3) :
    (ceilingFaultCode writes va acc).toNat % 256 = 0 := by
  rw [ceilingFaultCode_toNat, Nat.mul_mod_right]

/-- Settles O41: `CHK` hands back `checkAnswer`, whose three cases are those stated; the free code is nonzero with a zero
low byte whatever was drawn (D15; log 9). -/
theorem chkAnswersCategoryAndCode : Obligations.ChkAnswersCategoryAndCode := by
  intro s va acc
  refine ⟨rfl, fun hva hsys => ?system, fun hva hsys => ?user, fun hva => ?below⟩
  case system => rw [exec_chk, checkAnswer_system hva hsys]; rfl
  case user =>
    refine ⟨_, ceilingFaultCode_ne_zero s.writes va acc, ceilingFaultCode_mod s.writes va acc, ?_⟩
    rw [exec_chk, checkAnswer_user hva hsys]
    rfl
  case below =>
    refine ⟨descIndex va s.sys, descIndex_eq va s.sys, ?_⟩
    rw [exec_chk, checkAnswer_below s hva]
    rfl

end Sys2Proof.Machine
end

section
/-! PROOFS. The context registers (R150 to R152): what SETSYS and SETPID write, what they leave unchanged, and that no
other operation reaches either register. -/

namespace Sys2Proof.Machine

theorem exec_setsys (s : State) (data : Word) :
    exec (.setsys data) s = .next ((s.putSys (dataBit data)).countWrite.respond .done) := rfl

theorem exec_setpid (s : State) (data : Word) :
    exec (.setpid data) s = .next ((s.putPid (dataByte data)).countWrite.respond .done) := rfl

theorem dataBit_eq (data : Word) : dataBit data = decide (data.toNat % 2 = 1) := Nat.testBit_zero data.toNat

theorem dataByte_eq_ofNat (data : Word) : dataByte data = BitVec.ofNat 8 (data.toNat % 256) := by
  rw [dataByte_eq]
  exact BitVec.eq_of_toNat_eq (by simp)

/-- Settles O44: the bit SETSYS stores is the remainder of its datum modulo 2. -/
theorem setsysWritesTheModeBit : Obligations.SetsysWritesTheModeBit := by
  intro s data
  refine ⟨rfl, ?_⟩
  rw [exec_setsys, dataBit_eq]
  rfl

/-- Settles O45: the byte SETPID stores is the remainder of its datum modulo 256 (D19; log 18). -/
theorem setpidWritesTheProcessId : Obligations.SetpidWritesTheProcessId := by
  intro s data
  refine ⟨rfl, ?_⟩
  rw [exec_setpid, dataByte_eq_ofNat]
  rfl

/-- Settles O55: SETSYS and SETPID reach the state through `putSys` and `putPid` (`exec_next`), which change one register
each. -/
theorem contextWritesFrame : Obligations.ContextWritesFrame := by
  intro s t data
  refine ⟨fun i hi h => ?storage, fun h => ?pid, fun h => ?sys⟩
  case storage =>
    simp only [List.mem_cons, List.not_mem_nil, or_false] at hi
    obtain rfl | rfl := hi
    all_goals
      cases exec_next h
      exact ⟨⟨rfl, rfl⟩, fun _ => rfl, fun _ => rfl, fun _ => rfl⟩
  case pid =>
    cases exec_next h
    rfl
  case sys =>
    cases exec_next h
    rfl

/-- An operation that completes is one of the two setters, or keeps both context registers. -/
theorem context_next {i : Instr} {s t : State} (h : exec i s = .next t) :
    (∃ data, i = .setsys data) ∨ (∃ data, i = .setpid data) ∨ t.sys = s.sys ∧ t.pid = s.pid := by
  cases i with
  | setsys data => exact .inl ⟨data, rfl⟩
  | setpid data => exact .inr (.inl ⟨data, rfl⟩)
  | drd8 | drd16 | drd32 =>
    obtain ⟨v, rfl⟩ := exec_next h
    exact .inr (.inr ⟨rfl, rfl⟩)
  | dwr8 | dwr16 =>
    obtain rfl | ⟨-, w, rfl⟩ := exec_next h
    · exact .inr (.inr ⟨rfl, rfl⟩)
    · exact .inr (.inr ⟨withWordAt_sys s _ w, withWordAt_pid s _ w⟩)
  | dwr32 =>
    obtain rfl | ⟨-, high, low, rfl⟩ := exec_next h
    · exact .inr (.inr ⟨rfl, rfl⟩)
    · exact .inr (.inr ⟨by simp, by simp⟩)
  | rrd8 | rrd16 | rrd32 =>
    obtain ⟨-, v, rfl⟩ := exec_next h
    exact .inr (.inr ⟨rfl, rfl⟩)
  | rwr8 | rwr16 | rwr32 =>
    obtain ⟨-, v, rfl⟩ := exec_next h
    exact .inr (.inr ⟨by simp, by simp⟩)
  | chk =>
    obtain ⟨category, code, -, rfl⟩ := exec_next h
    exact .inr (.inr ⟨rfl, rfl⟩)

/-- Settles O46: an operation that is neither setter keeps both registers (`context_next`), and each setter keeps the
other's register (`contextWritesFrame`). -/
theorem onlySettersChangeTheContext : Obligations.OnlySettersChangeTheContext := by
  intro i s t h
  obtain ⟨data, rfl⟩ | ⟨data, rfl⟩ | ⟨hsys, hpid⟩ := context_next h
  · obtain ⟨-, keepsPid, -⟩ := contextWritesFrame s t data
    exact ⟨fun _ => ⟨data, rfl⟩, absurd (keepsPid h)⟩
  · obtain ⟨-, -, keepsSys⟩ := contextWritesFrame s t data
    exact ⟨absurd (keepsSys h), fun _ => ⟨data, rfl⟩⟩
  · exact ⟨absurd hsys, absurd hpid⟩

end Sys2Proof.Machine
end

section
/-! PROOFS. The abort (R165): which operations raise it and when, that nothing else stops an operation, and that an
operation on a routed address therefore completes (R166, R185). -/

namespace Sys2Proof.Machine

/-- The operation ends in the abort when `cond` holds, and completes otherwise: it is never refused. -/
def AbortsExactlyWhen (cond : Prop) (o : Host.Outcome State Fault Refusal) : Prop :=
  (o = .fault .assertRange ↔ cond) ∧ ∀ r, o ≠ .refused r

theorem abortsExactlyWhen_of_cases {cond : Prop} {o : Host.Outcome State Fault Refusal}
    (habort : cond → o = .fault .assertRange) (hnext : ¬ cond → ∃ t, o = .next t) : AbortsExactlyWhen cond o := by
  by_cases hc : cond
  · rw [habort hc]
    exact ⟨iff_of_true rfl hc, fun r => nofun⟩
  · obtain ⟨t, ht⟩ := hnext hc
    rw [ht]
    exact ⟨iff_of_false nofun hc, fun r => nofun⟩

/-- The abort is the only fault, so an outcome that is neither it nor a refusal is a next state. -/
theorem AbortsExactlyWhen.next {cond : Prop} {o : Host.Outcome State Fault Refusal} (h : AbortsExactlyWhen cond o)
    (hcond : ¬ cond) : ∃ t, o = .next t := by
  obtain ⟨hfault, hrefused⟩ := h
  match o with
  | .next t => exact ⟨t, rfl⟩
  | .fault .assertRange => exact absurd (hfault.mp rfl) hcond
  | .refused r => exact absurd rfl (hrefused r)

/-- A descriptor read aborts when its halfword accesses do (R109). -/
theorem finishRead_abortsExactlyWhen (s : State) {value : Except Fault Word} {cond : Prop}
    (habort : cond → value = .error .assertRange) (hok : ¬ cond → ∃ v, value = .ok v) :
    AbortsExactlyWhen cond (finishRead s value) := by
  refine abortsExactlyWhen_of_cases (fun hc => ?_) fun hc => ?_
  · rw [habort hc, finishRead_error]
  · obtain ⟨v, hv⟩ := hok hc
    exact ⟨_, by rw [hv, finishRead_ok]⟩

/-- A descriptor write aborts when its halfword accesses do and it is not the secondary master's (R108, R109, D17). -/
theorem finishWrite_abortsExactlyWhen (s : State) (cpu : CoreId) {written : Except Fault State} {cond : Prop}
    (habort : cond → written = .error .assertRange) (hok : ¬ cond → ∃ u, written = .ok u) :
    AbortsExactlyWhen (cpu ≠ s.cfg.secondaryCoreId ∧ cond) (finishWrite s cpu written) := by
  refine abortsExactlyWhen_of_cases (fun ⟨hcpu, hc⟩ => ?_) fun hno => ?_
  · rw [habort hc, finishWrite_error hcpu]
  · by_cases hcpu : cpu = s.cfg.secondaryCoreId
    · exact ⟨_, finishWrite_secondary hcpu written⟩
    · obtain ⟨u, hu⟩ := hok fun hc => hno ⟨hcpu, hc⟩
      exact ⟨_, by rw [hu, finishWrite_ok hcpu]⟩

theorem ramRead_abortsExactlyWhen (s : State) (va : Word) (n : Nat) :
    AbortsExactlyWhen (0x800000 ≤ va.toNat) (ramRead s va n) :=
  abortsExactlyWhen_of_cases (fun hva => ramRead_abort s hva n) fun hva => ⟨_, ramRead_ok s (Nat.not_le.mp hva) n⟩

theorem ramWrite_abortsExactlyWhen (s : State) (va : Word) (n : Nat) (data : Word) :
    AbortsExactlyWhen (0x800000 ≤ va.toNat) (ramWrite s va n data) :=
  abortsExactlyWhen_of_cases (fun hva => ramWrite_abort s hva n data)
    fun hva => ⟨_, ramWrite_ok s (Nat.not_le.mp hva) n data⟩

/-- Settles O50: each operation aborts as the bus access under it does; `CHK` and the setters always complete. -/
theorem abortExactlyInTheStatedCases : Obligations.AbortExactlyInTheStatedCases := by
  intro i s
  cases i with
  | drd8 ba =>
    exact finishRead_abortsExactlyWhen s (readLane_abort s) fun hba => ⟨_, readLane_ok s (Nat.not_lt.mp hba)⟩
  | drd16 ba =>
    exact finishRead_abortsExactlyWhen s (readHalf_abort s) fun hba => ⟨_, readHalf_ok s (Nat.not_lt.mp hba)⟩
  | drd32 ba =>
    exact finishRead_abortsExactlyWhen s (readPair_abort s) fun hba => ⟨_, readPair_ok s (Nat.not_lt.mp hba)⟩
  | dwr8 ba data cpu =>
    exact finishWrite_abortsExactlyWhen s cpu (writeLane_abort s · data)
      fun hba => ⟨_, writeLane_ok s (Nat.not_lt.mp hba) data⟩
  | dwr16 ba data cpu =>
    exact finishWrite_abortsExactlyWhen s cpu (writeHalf_abort s · data)
      fun hba => ⟨_, writeHalf_ok s (Nat.not_lt.mp hba) data⟩
  | dwr32 ba data cpu =>
    exact finishWrite_abortsExactlyWhen s cpu (writePair_abort s · data)
      fun hba => ⟨_, writePair_ok s (Nat.not_lt.mp hba) data⟩
  | rrd8 va | rrd16 va | rrd32 va => exact ramRead_abortsExactlyWhen s va _
  | rwr8 va data | rwr16 va data | rwr32 va data => exact ramWrite_abortsExactlyWhen s va _ _
  | chk va acc => exact abortsExactlyWhen_of_cases False.elim fun _ => ⟨_, exec_chk s va acc⟩
  | setsys data => exact abortsExactlyWhen_of_cases False.elim fun _ => ⟨_, exec_setsys s data⟩
  | setpid data => exact abortsExactlyWhen_of_cases False.elim fun _ => ⟨_, exec_setpid s data⟩

/-- The addresses R185 lets the dispatch route are those no operation aborts on. -/
theorem exec_wellFormed_next {i : Instr} (hi : i.wellFormed = true) (s : State) : ∃ t, exec i s = .next t := by
  refine AbortsExactlyWhen.next (abortExactlyInTheStatedCases i s) ?_
  cases i with
  | drd8 | drd16 | drd32 => exact Nat.not_lt.mpr (of_decide_eq_true hi)
  | dwr8 | dwr16 | dwr32 => exact fun ⟨_, habove⟩ => Nat.not_lt.mpr (of_decide_eq_true hi) habove
  | rrd8 | rrd16 | rrd32 | rwr8 | rwr16 | rwr32 => exact Nat.not_le.mpr (of_decide_eq_true hi)
  | chk | setsys | setpid => exact id

/-- Settles O9: the step performs the decoded operation, and on a routed address that completes from every state. -/
theorem routedRequestsComplete : Obligations.RoutedRequestsComplete := by
  intro s r rest i hreq hdec hi
  rw [step_eq_exec hreq hdec]
  exact exec_wellFormed_next hi _

end Sys2Proof.Machine
end

section
/-! PROOFS. The categories (R161 to R164): how CHK chooses one, that no other operation hands one back, and that a
descriptor write tests its initiator before its range (D17). -/

namespace Sys2Proof.Machine

/-- The three disable bits of a lower word as a number (R50). -/
theorem disableBits_toNat (lo : Half) : (lo.extractLsb' 13 3).toNat = lo.toNat / 8192 := by
  rw [BitVec.extractLsb'_toNat, Nat.shiftRight_eq_div_pow]
  omega

/-- A requested kind is disabled, on numbers (R81). -/
theorem disableBits_and_ne_zero_iff (lo : Half) (acc : BitVec 3) :
    lo.extractLsb' 13 3 &&& acc ≠ 0#3 ↔ lo.toNat / 8192 &&& acc.toNat ≠ 0 := by
  rw [← disableBits_toNat, ← BitVec.toNat_and]
  exact BitVec.toNat_ne_iff_ne.symm

/-- The order of the evaluator's two findings: ownership before protection (R84, R164). -/
theorem collapse_evaluate (up lo : Half) (acc : BitVec 3) (isSys : Bool) (pid : Byte) :
    collapse (evaluate up lo acc isSys pid) =
      if isSys = false ∧ up.toNat / 256 ≠ pid.toNat then .ownershipFault
      else if lo.toNat / 8192 &&& acc.toNat ≠ 0 then .protectionFault
      else .ok := by
  split
  case isTrue h =>
    obtain ⟨rfl, hforeign⟩ := h
    exact foreignPagesGiveOwnershipFault up lo acc pid hforeign
  case isFalse h =>
    have howned : isSys = true ∨ up.toNat / 256 = pid.toNat := by
      simpa [imp_iff_not_or] using h
    obtain ⟨hcategory, -⟩ := ownedPagesFollowDisableBits up lo acc isSys pid howned
    rw [hcategory]
    simp only [disableBits_and_ne_zero_iff]

/-- Settles O42: the ceiling comes before the descriptor (`checkAnswer`) and there ownership before protection
(`collapse_evaluate`); the secondary master's descriptor writes complete whatever their address. -/
theorem categoryPriority : Obligations.CategoryPriority := by
  refine ⟨fun s va acc => ?chk, fun s ba data cpu f i hi hfault hcpu => ?initiator⟩
  case chk =>
    by_cases hva : 0x800000 ≤ va.toNat
    · rw [if_pos hva]
      cases hsys : s.sys with
      | true => exact ⟨_, _, exec_chk s va acc, checkAnswer_system hva hsys acc⟩
      | false => exact ⟨_, _, exec_chk s va acc, checkAnswer_user hva hsys acc⟩
    · rw [if_neg hva, ← collapse_evaluate]
      exact ⟨_, _, exec_chk s va acc, checkAnswer_below s (Nat.not_le.mp hva) acc⟩
  case initiator =>
    subst hcpu
    obtain ⟨t, hnext, -⟩ := secondaryMasterWritesAreDiscarded s ba data i hi
    rw [hfault] at hnext
    cases hnext

/-- Settles O49: every other operation hands back a value or `done` (`exec_next`). -/
theorem onlyChkHandsBackACategory : Obligations.OnlyChkHandsBackACategory := by
  intro i s t category code h hresponse
  cases i with
  | chk va acc => exact ⟨va, acc, rfl⟩
  | drd8 | drd16 | drd32 =>
    obtain ⟨v, rfl⟩ := exec_next h
    cases hresponse
  | dwr8 | dwr16 =>
    obtain rfl | ⟨-, w, rfl⟩ := exec_next h <;> cases hresponse
  | dwr32 =>
    obtain rfl | ⟨-, high, low, rfl⟩ := exec_next h <;> cases hresponse
  | rrd8 | rrd16 | rrd32 | rwr8 | rwr16 | rwr32 =>
    obtain ⟨-, v, rfl⟩ := exec_next h
    cases hresponse
  | setsys | setpid =>
    cases exec_next h
    cases hresponse

end Sys2Proof.Machine
end

section
/-! PROOFS. Two hazards: the byte write that clears the flags of a descriptor (R192), and the frame numbers that
RAM_SIZE makes one (R194). -/

namespace Sys2Proof.Machine

/-- A byte merged at an odd address is the low byte; the owner stands in the high one (R36, R51). -/
theorem laneMerge_odd {ba : Word} (hodd : ba.toNat % 2 = 1) (w : Half) (b : Byte) :
    laneMerge ba w b = ownerId w ++ b := by
  have hbit : ba.getLsbD 0 = true := (Nat.testBit_zero ba.toNat).trans (decide_eq_true hodd)
  rw [laneMerge, if_pos hbit, ownerId_eq]

/-- Byte `4i + 1` is the low lane of halfword `2i`, the upper word of descriptor `i` (R100, R103). -/
theorem exec_dwr8_flagByte {s : State} {i : Nat} {cpu : CoreId} (hcpu : cpu ≠ s.cfg.secondaryCoreId) (hi : i < 4096)
    (data : Word) :
    exec (.dwr8 (BitVec.ofNat 32 (4 * i + 1)) data cpu) s =
      .next ((s.putUpper i (ownerId (cellRead s.up i) ++ dataByte data)).countWrite.respond .done) := by
  have hba : (BitVec.ofNat 32 (4 * i + 1)).toNat = 4 * i + 1 := by
    rw [BitVec.toNat_ofNat]
    omega
  have hhalf : (4 * i + 1) / 2 = 2 * i := by omega
  have hdescriptor : 2 * i / 2 = i := by omega
  rw [exec_dwr8_ok hcpu (by omega), laneMerge_odd (by omega), hba, hhalf, wordAt_upper, withWordAt_even (by omega),
    hdescriptor]

/-- Settles O23: the write replaces the low byte of the upper word, which holds the flags and the unassigned bits, and
keeps the high byte, which holds the owner. -/
theorem byteWriteClearsFlagsKeepsOwner : Obligations.ByteWriteClearsFlagsKeepsOwner := by
  intro s i cpu hcpu hi
  refine ⟨_, exec_dwr8_flagByte hcpu hi 0#32, ?owner, ?flags, rfl, rfl⟩
  case owner =>
    rw [State.respond_up, State.countWrite_up, State.putUpper_up, cellRead_cellWrite_same, ownerId_append]
  case flags =>
    rw [State.respond_up, State.countWrite_up, State.putUpper_up, cellRead_cellWrite_same,
      BitVec.setWidth_append_eq_right]
    rfl

/-- Settles O26: 8 MiB are 2048 frames, so the remainder by RAM_SIZE keeps of the frame number its remainder modulo
2048. -/
theorem framesWrapModulo2048 : Obligations.FramesWrapModulo2048 := by
  intro c lo₁ lo₂ va hbits hframes
  have hsize : ramSize c = 0x800000 := by rw [ramSize, hbits]; rfl
  rw [physicalOffset_eq, physicalOffset_eq, hsize]
  omega

end Sys2Proof.Machine
end
